-- ==== Sys2Proof/Word.lean ====
section
/-! DEFINITION. The words of the block: field widths (R7, R28), the units and request formats (R53, R57), and a request as
the caller presents it. -/

namespace Sys2Proof

/-- A 64-bit value: `value`, `q`, `wmask` (R7, R28). -/
abbrev Word := BitVec 64

/-- A one-bit field: `N`, `immN`, `sf` (R28). -/
abbrev Bit := BitVec 1

/-- A six-bit field: `imms`, `immr`, `bit`, `shiftCount` (R28). -/
abbrev Field6 := BitVec 6

/-- A seven-bit operand: `length`, `esize`, `totalWidth`, `width`, and the result `index` (R28). -/
abbrev Field7 := BitVec 7

/-- The lines a request is presented on: ten bytes, which hold the longest request word (78 bits, R57).
DESIGN CHOICE (log 3), safe: lines above a format's width are refused, never dropped. -/
abbrev RequestLines := BitVec 80

/-- The three units of the block (R2, R53). -/
inductive BlockUnit where
  | prim
  | dbm
  | mwp
  deriving DecidableEq, Repr

/-- The request formats (R54, R56, R57). In unit PRIM the format says which function's ports are driven (R53, R61). -/
inductive Format where
  /-- P-BIT, the ports of `ISBITSET`. -/
  | pBit
  /-- P-LEN, the ports of `ONES`. -/
  | pLen
  /-- P-VAL, the ports of `HSB`. -/
  | pVal
  /-- P-REP, the ports of `REPLICATE`. -/
  | pRep
  /-- P-ROR, the ports of `ROR`. -/
  | pRor
  /-- F-DBM, the ports of unit DBM. -/
  | fDbm
  /-- F-MWP, the ports of unit MWP. -/
  | fMwp
  deriving DecidableEq, Repr

/-- One request: the ports the caller drives and the packed word on them (R53). -/
structure Request where
  format : Format
  word : RequestLines
  deriving DecidableEq, Repr

end Sys2Proof
end

