-- ==== Sys2Proof/Machine/Operands.lean ====
section
/-! DEFINITION. Operand assembly and operand domains: the fields inside a request word (R52, R54, R56, R57), the ways
`DecodeBitMasks` combines its fields (R58), the width `sf` selects (R111), and the domains of the primitives
(R73, R78, R81). Arithmetic is on natural numbers, as R10 and R11 say: nothing wraps. -/

namespace Sys2Proof.Machine

/-- `NOT_6(a)`: the one's complement within six bits (R11). -/
def not6 (a : Nat) : Nat := 2 ^ 6 - 1 - a

/-- The seven-bit value `N : NOT_6(imms)` whose highest set bit selects the element size (R58(a), R92). -/
def thermometer (N : Bit) (imms : Field6) : Nat :=
  (N.toNat <<< 6) ||| not6 imms.toNat

/-- `F13 = N : immr : imms` (R52). -/
def packF13 (N : Bit) (immr imms : Field6) : BitVec 13 := N ++ immr ++ imms

/-- `width` of the predicate: 64 when `sf = 1`, else 32 (R111). -/
def selectedWidth (sf : Bit) : Nat := if sf = 1 then 64 else 32

/-- Domain of `Ones`: `0 <= length <= 64` (R73). -/
def onesDomain (length : Nat) : Bool := length ≤ 64

/-- Domain of `Replicate`: `1 <= esize <= totalWidth <= 64`, `totalWidth` a multiple of `esize` (R78). -/
def replicateDomain (totalWidth esize : Nat) : Bool :=
  1 ≤ esize && esize ≤ totalWidth && totalWidth ≤ 64 && totalWidth % esize == 0

/-- Domain of `RotateRight`: `1 <= width <= 64`, `0 <= shiftCount < width` (R81). -/
def rorDomain (width shiftCount : Nat) : Bool :=
  1 ≤ width && width ≤ 64 && shiftCount < width

end Sys2Proof.Machine
end

