-- ==== Sys2Proof/Syntax.lean ====
section
/-! DEFINITION. The eight operations of spec/opcode_table.json, one constructor a row. Operands of the decoder and the
predicate stand in the CALL order of the spec (`N, imms, immr`), not in the packed order (R60). -/

namespace Sys2Proof

/-- An operation with its operands, each as wide as its port (R28, D2), so that no field out of range can be presented. -/
inductive Instr where
  /-- `ISBITSET` (R71). -/
  | isBitSet (bit : Field6) (value : Word)
  /-- `ONES` (R72). -/
  | ones (length : Field7)
  /-- `HSB` (R74). -/
  | hsb (value : Word)
  /-- `REPLICATE` (R76). -/
  | replicate (totalWidth esize : Field7) (value : Word)
  /-- `ROR` (R79). -/
  | ror (width : Field7) (shiftCount : Field6) (value : Word)
  /-- `DBM.L`: `DecodeBitMasks` with `logical_context = true` (R103). -/
  | dbmL (N : Bit) (imms immr : Field6)
  /-- `DBM.M`: `DecodeBitMasks` with `logical_context = false` (R104). -/
  | dbmM (N : Bit) (imms immr : Field6)
  /-- `MWP`: `MoveWidePreferred` (R117). -/
  | mwp (sf immN : Bit) (imms immr : Field6)
  deriving DecidableEq, Repr

end Sys2Proof
end

