-- ==== Sys2Proof/Decode.lean ====
section
/-! DEFINITION. Reading an operation from a request and packing one into a request (R52 to R57, R61). There is no
instruction stream and no shared opcode field: the format says which ports are driven, and inside unit DBM bit 13 is `L`.
`decode` is total and refuses, by name, a word with a bit above its format's width. -/

namespace Sys2Proof

/-- The unit whose ports a format drives (R53). -/
def Format.unit : Format → BlockUnit
  | .pBit => .prim
  | .pLen => .prim
  | .pVal => .prim
  | .pRep => .prim
  | .pRor => .prim
  | .fDbm => .dbm
  | .fMwp => .mwp

/-- The bits of a format's request word (R53, R54, R56, R57). -/
def Format.requestBits : Format → Nat
  | .pBit => 70
  | .pLen => 7
  | .pVal => 64
  | .pRep => 78
  | .pRor => 77
  | .fDbm => 14
  | .fMwp => 14

/-- Why a request is no operation. -/
inductive DecodeError where
  /-- A bit above the format's width is driven: such a field value cannot be presented on the block's ports, and a model
  on wider types refuses it (U6, D2). Safe. -/
  | wordTooWide
  deriving DecidableEq, Repr

/-- The operation whose fields stand in the word of each format (R54, R56, R57). -/
def decodeFields (f : Format) (w : RequestLines) : Instr :=
  match f with
  | .pBit => .isBitSet (w.extractLsb' 64 6) (w.extractLsb' 0 64)
  | .pLen => .ones (w.extractLsb' 0 7)
  | .pVal => .hsb (w.extractLsb' 0 64)
  | .pRep => .replicate (w.extractLsb' 71 7) (w.extractLsb' 64 7) (w.extractLsb' 0 64)
  | .pRor => .ror (w.extractLsb' 70 7) (w.extractLsb' 64 6) (w.extractLsb' 0 64)
  | .fDbm =>
    match w.getLsbD 13 with
    | true => .dbmL (w.extractLsb' 12 1) (w.extractLsb' 0 6) (w.extractLsb' 6 6)
    | false => .dbmM (w.extractLsb' 12 1) (w.extractLsb' 0 6) (w.extractLsb' 6 6)
  | .fMwp => .mwp (w.extractLsb' 13 1) (w.extractLsb' 12 1) (w.extractLsb' 0 6) (w.extractLsb' 6 6)

/-- Read a request: its fields if the word fits its format, else a refusal by name. -/
def decode (r : Request) : Except DecodeError Instr :=
  if r.word.toNat < 2 ^ r.format.requestBits then
    .ok (decodeFields r.format r.word)
  else
    .error .wordTooWide

/-- Pack an operation into its request word, most significant field first (R52, R54, R56, R57). -/
def encode : Instr → Request
  | .isBitSet bit value => ⟨.pBit, (bit ++ value).setWidth 80⟩
  | .ones length => ⟨.pLen, length.setWidth 80⟩
  | .hsb value => ⟨.pVal, value.setWidth 80⟩
  | .replicate totalWidth esize value => ⟨.pRep, (totalWidth ++ esize ++ value).setWidth 80⟩
  | .ror width shiftCount value => ⟨.pRor, (width ++ shiftCount ++ value).setWidth 80⟩
  | .dbmL N imms immr => ⟨.fDbm, ((1#1) ++ Machine.packF13 N immr imms).setWidth 80⟩
  | .dbmM N imms immr => ⟨.fDbm, ((0#1) ++ Machine.packF13 N immr imms).setWidth 80⟩
  | .mwp sf immN imms immr => ⟨.fMwp, (sf ++ Machine.packF13 immN immr imms).setWidth 80⟩

/-- The format a bare table word is read in. DESIGN CHOICE (log 4), safe: the spec selects an operation by the ports driven
and not by bits of the word (R61), so a word and its size alone do not name one. A size names a format only where it is the
format's own width or that width in whole bytes, so that every line of the format is driven (R31); any other size names none.
A 14-bit or 16-bit word is read on unit DBM, and an 80-bit word in the narrower of the two formats that holds it. -/
def tableFormat (nbits w : Nat) : Option Format :=
  match nbits with
  | 7 => some .pLen
  | 8 => some .pLen
  | 14 => some .fDbm
  | 16 => some .fDbm
  | 64 => some .pVal
  | 70 => some .pBit
  | 72 => some .pBit
  | 77 => some .pRor
  | 78 => some .pRep
  | 80 => if w < 2 ^ 77 then some .pRor else some .pRep
  | _ => none

/-- The request a bare table word of `nbits` bits stands for: the low `nbits` bits of `w`, where the size names a format
(log 4). No line of the format is left undriven and read as 0 (R31). -/
def tableRequest (nbits w : Nat) : Option Request :=
  (tableFormat nbits (w % 2 ^ nbits)).map fun f => ⟨f, BitVec.ofNat 80 (w % 2 ^ nbits)⟩

/-- What the decoder reads from a table word of `nbits` bits (the host's question of each table row; log 4). -/
def decodeTableWord (nbits w : Nat) : Option Instr :=
  match tableRequest nbits w with
  | some r => (decode r).toOption
  | none => none

end Sys2Proof
end

