-- ==== Sys2Proof/Machine/State.lean ====
section
/-! DEFINITION. The state. The block itself holds none (R20 to R27, R30): no register, no program counter, no flag, no
memory. What stands here is the block's output ports and the caller in front of its input ports (R4, R28, D22). -/

namespace Sys2Proof.Machine

/-- What the output ports of the evaluated unit carry (R28, R53, R55, R57). -/
inductive Response where
  /-- Port `q` of `ISBITSET`, one bit. -/
  | bit (q : Bit)
  /-- Port `q` of `ONES`, `REPLICATE` and `ROR`, 64 bits. -/
  | word (q : Word)
  /-- Port `index` of `HSB`: seven bits, two's complement (R74, D12). -/
  | index (i : Field7)
  /-- Unit DBM with `undef = 0`: `Ok(wmask)` (R101). -/
  | wmask (w : Word)
  /-- Unit DBM with `undef = 1`: the outcome Undefined, which has no value (R55, R130, R133; log 5). -/
  | undefined
  /-- Port `preferred` of unit MWP (R116). -/
  | preferred (p : Bool)
  deriving DecidableEq, Repr

/-- The two causes of Undefined (R131). A diagnostic inside the evaluation: no port and no field of State carries it
(R132; log 6). -/
inductive UndefCause where
  /-- Cause (a): `length < 1`, no valid element size (R93). -/
  | noElementSize
  /-- Cause (b): logical context and all significant bits of `imms` set (R95). -/
  | allOnesRejected
  deriving DecidableEq, Repr

/-- Why the machine stops. -/
inductive Fault where
  /-- Raised by `fetch`: the caller presents nothing, so no input port has a value and the function is not applied
  (R31, U10: stuck; log 2). Safe. -/
  | inputsUndriven
  deriving DecidableEq, Repr

/-- Why a request has no meaning. -/
inductive Refusal where
  /-- Kept for an arm of exec that has no meaning yet; no arm raises it. Safe. -/
  | notModelled (mnemonic : String)
  /-- Raised by `fetch`: a line above the format's width is driven (U6; log 3). Safe. -/
  | requestWordTooWide
  /-- Raised by `execOnes`: `length > 64` (R73, R139, U3; log 10). Safe. -/
  | onesLengthOutsideDomain
  /-- Raised by `execReplicate`: operands outside the domain of R78 (R139, U4; log 10). Safe. -/
  | replicateOutsideDomain
  /-- Raised by `execRor`: operands outside the domain of R81 (R139, U5; log 10). Safe. -/
  | rorOutsideDomain
  deriving DecidableEq, Repr

/-- The caller and the ports (log 1). -/
structure State where
  /-- The requests the caller has yet to present, oldest first (R22, R137, D22). -/
  requests : List Request
  /-- What the output ports carry for the request just evaluated; none is "no value" (R28, R31, R151). -/
  outputs : Option Response
  deriving DecidableEq, Repr

/-- After reset: nothing is presented, so no output has a value (R30, R31, R151; log 2). -/
def State.reset : State := ⟨[], none⟩

end Sys2Proof.Machine
end

