-- ==== Sys2Proof/Machine/Ops.lean ====
section
/-! DEFINITION. The operations over the state: presenting a request, taking the next one, putting a result on the output
ports, and signalling Undefined. Undefined is the block's one exceptional outcome and is a returned result: nothing is
saved, no mode changes, control goes nowhere, and there is no return from it (R130, R132, R136, R137). -/

namespace Sys2Proof.Machine

/-- The caller presents `r` as its next request, in place of the one it would have presented (R22, D22). -/
def State.present (s : State) (r : Request) : State := { s with requests := r :: s.requests.tail }

/-- An evaluation ends with a result: all outputs of the unit appear together (R38); every earlier result is gone, since a
value has no existence outside its evaluation (R20). -/
def State.respond (s : State) (r : Response) : State := { s with outputs := some r }

/-- The Undefined outcome on the ports: `undef = 1` and no value (R101, R130, R136). -/
def State.signalUndefined (s : State) : State := s.respond .undefined

/-- The outcome of `DecodeBitMasks` on the ports of unit DBM (R101). Both causes give the one outcome (R130, R132). -/
def deliver (result : Except UndefCause Word) (s : State) : Host.Outcome State Fault Refusal :=
  match result with
  | .ok wmask => .next (s.respond (.wmask wmask))
  | .error _ => .next s.signalUndefined

/-- Take the caller's next request and read the operation on it. -/
def fetch (s : State) : Host.Outcome (Instr × State) Fault Refusal :=
  match s.requests with
  | [] => .fault .inputsUndriven
  | r :: rest =>
    match decode r with
    | .ok i => .next (i, { s with requests := rest })
    | .error .wordTooWide => .refused .requestWordTooWide

end Sys2Proof.Machine
end

