-- ==== Sys2Proof/Machine/Primitives.lean ====
section
/-! DEFINITION. The bit primitives (40_bit_primitives.md) on unbounded integers, as R10, R11 and R84 say: nothing wraps,
a result is cut to a width only where the rule says `& Ones(n)`. The laws of R82 and R83 hold of `isBitSetFn`, `onesFn`,
`highestSetBit`, `replicateFn` and `rotateRightFn`: Laws/PrimitiveLaws.lean. -/

namespace Sys2Proof.Machine

/-- `IsBitSet(value, bit)` (R71). -/
def isBitSetFn (value bit : Nat) : Nat := (value >>> bit) &&& 1

/-- `Ones(length)`: `2^length - 1`, also at 64 (R72, R73). -/
def onesFn (length : Nat) : Nat := 2 ^ length - 1

/-- The scan of `HighestSetBit` over the bits below `n`, from the top down (R74). -/
def scanDown (value : Nat) : Nat → Int
  | 0 => -1
  | i + 1 => if isBitSetFn value i = 1 then i else scanDown value i

/-- `HighestSetBit(value)`: from bit 63 down to bit 0, -1 when no bit is set (R74). -/
def highestSetBit (value : Nat) : Int := scanDown value 64

/-- The loop of `Replicate`: `q` accumulates copies of `e`, `pos` counts the bits produced so far (R76, R77). The first
argument bounds the iterations (R156: at most 64); `replicateFn_testBit` in Laws proves that the bound cuts nothing short
inside the domain. -/
def tile (e esize totalWidth : Nat) : Nat → Nat → Nat → Nat
  | 0, q, _ => q
  | n + 1, q, pos =>
    if pos < totalWidth then tile e esize totalWidth n (q ||| (e <<< pos)) (pos + esize) else q

/-- `Replicate(value, esize, totalWidth)`: the low `esize` bits of `value`, masked first (R76, C8). -/
def replicateFn (value esize totalWidth : Nat) : Nat :=
  tile (value &&& onesFn esize) esize totalWidth 64 0 0

/-- `RotateRight(value, shiftCount, width)`: the low `width` bits of `value`, masked first (R79, C7). -/
def rotateRightFn (value shiftCount width : Nat) : Nat :=
  let v := value &&& onesFn width
  ((v >>> shiftCount) ||| (v <<< (width - shiftCount))) &&& onesFn width

end Sys2Proof.Machine
end

