-- ==== Sys2Proof/Machine/Dbm.lean ====
section
/-! DEFINITION. Unit DBM: `DecodeBitMasks` (41_decode_bitmasks.md) and its two operations `DBM.L` and `DBM.M`. -/

namespace Sys2Proof.Machine

/-- Step 2: `length = HSB(N : NOT_6(imms))`, in -1..6 (R92). -/
def elementLength (N : Bit) (imms : Field6) : Int := highestSetBit (thermometer N imms)

/-- Steps 6 to 10 for a `length` of at least 1: run, rotation within the element, tiling over 64 bits (R96 to R100).
The decoder's own `width` (R91) is read by nothing and is left out (D20; log 12). -/
def expandElement (length : Nat) (imms immr : Field6) : Nat :=
  let levels := onesFn length
  let s := imms.toNat &&& levels
  let r := immr.toNat &&& levels
  let esize := 1 <<< length
  let welem := onesFn (s + 1)
  let elem := rotateRightFn welem r esize
  replicateFn elem esize 64

/-- `DecodeBitMasks(N, imms, immr, L)` (R102). Cause (a) is tested before cause (b) (R135). -/
def decodeBitMasks (N : Bit) (imms immr : Field6) (logicalContext : Bool) : Except UndefCause Word :=
  let length := elementLength N imms
  if length < 1 then
    .error .noElementSize
  else
    let levels := onesFn length.toNat
    if logicalContext && (imms.toNat &&& levels) == levels then
      .error .allOnesRejected
    else
      .ok (BitVec.ofNat 64 (expandElement length.toNat imms immr))

/-- `DBM.L`: logical context (R103). -/
def execDbmL (N : Bit) (imms immr : Field6) (s : State) : Host.Outcome State Fault Refusal :=
  deliver (decodeBitMasks N imms immr true) s

/-- `DBM.M`: no all-ones rejection (R104). -/
def execDbmM (N : Bit) (imms immr : Field6) (s : State) : Host.Outcome State Fault Refusal :=
  deliver (decodeBitMasks N imms immr false) s

end Sys2Proof.Machine
end

