-- ==== Sys2Proof/Config.lean ====
section
/-! DEFINITION. The one parameter the spec leaves open (R8, D8). It is fixed when the model is built and is not state (R24).
No value a meaning needs is left free by the spec on operands it accepts, so there is no opaque constant here. -/

namespace Sys2Proof

/-- The values of `MWP_MOVN_RHS`, the right-hand side of the MOVN test (R8, R114). -/
inductive MovnRhs where
  /-- `imms - width - 15`, the document's formula as written; the default. -/
  | verbatim
  /-- `imms - (width - 15)`, not in the source, offered by the spec as the parameter's other value (G1). -/
  | symmetric
  deriving DecidableEq, Repr

/-- The value this model is built with: the spec's default (R8, R114, D8; log 7). -/
def Config.mwpMovnRhs : MovnRhs := .verbatim

end Sys2Proof
end

