-- ==== Sys2Proof/Machine/Mwp.lean ====
section
/-! DEFINITION. Unit MWP: `MoveWidePreferred` (42_move_wide_preferred.md) and its operation `MWP`. The arithmetic is on
unbounded signed integers and `mod` is the floored modulus (D6, D7; log 8): Lean's `%` on `Int` with the divisor 16. -/

namespace Sys2Proof.Machine

/-- The right-hand side of the MOVN test for each value of `MWP_MOVN_RHS` (R114). It may be negative. -/
def movnBound (rhs : MovnRhs) (width imms : Int) : Int :=
  match rhs with
  | .verbatim => imms - width - 15
  | .symmetric => imms - (width - 15)

/-- `MoveWidePreferred(sf, immN, imms, immr)` (R117): step 2 passes exactly when `immN = sf` (R112, D9; log 9), then the
MOVZ-style test (R113), the MOVN-style test (R114), else false (R115). -/
def moveWidePreferred (rhs : MovnRhs) (sf immN : Bit) (imms immr : Field6) : Bool :=
  let width : Int := selectedWidth sf
  let s : Int := imms.toNat
  let r : Int := immr.toNat
  if immN ≠ sf then
    false
  else if s < 16 then
    decide ((-r) % 16 ≤ 15 - s)
  else if s ≥ width - 15 then
    decide (r % 16 ≤ movnBound rhs width s)
  else
    false

/-- `MWP` (R117), with the parameter at the model's value (R8). -/
def execMwp (sf immN : Bit) (imms immr : Field6) (s : State) : Host.Outcome State Fault Refusal :=
  .next (s.respond (.preferred (moveWidePreferred Config.mwpMovnRhs sf immN imms immr)))

end Sys2Proof.Machine
end

