-- ==== Sys2Proof/Machine/Prim.lean ====
section
/-! DEFINITION. Unit PRIM: `ISBITSET`, `ONES`, `HSB`, `REPLICATE`, `ROR` (40_bit_primitives.md). Each is a primitive on
integers, its result put on the port of its width; operands outside a stated domain are refused (R63, R139). -/

namespace Sys2Proof.Machine

/-- `ISBITSET` (R71). -/
def execIsBitSet (bit : Field6) (value : Word) (s : State) : Host.Outcome State Fault Refusal :=
  .next (s.respond (.bit (BitVec.ofNat 1 (isBitSetFn value.toNat bit.toNat))))

/-- `ONES` (R72), refused for `length > 64` (R73). -/
def execOnes (length : Field7) (s : State) : Host.Outcome State Fault Refusal :=
  if onesDomain length.toNat then
    .next (s.respond (.word (BitVec.ofNat 64 (onesFn length.toNat))))
  else
    .refused .onesLengthOutsideDomain

/-- `HSB` (R74): the index, or -1, in seven-bit two's complement (D12). -/
def execHsb (value : Word) (s : State) : Host.Outcome State Fault Refusal :=
  .next (s.respond (.index (BitVec.ofInt 7 (highestSetBit value.toNat))))

/-- `REPLICATE` (R76), refused outside the domain of R78. -/
def execReplicate (totalWidth esize : Field7) (value : Word) (s : State) : Host.Outcome State Fault Refusal :=
  if replicateDomain totalWidth.toNat esize.toNat then
    .next (s.respond (.word (BitVec.ofNat 64 (replicateFn value.toNat esize.toNat totalWidth.toNat))))
  else
    .refused .replicateOutsideDomain

/-- `ROR` (R79), refused outside the domain of R81. -/
def execRor (width : Field7) (shiftCount : Field6) (value : Word) (s : State) : Host.Outcome State Fault Refusal :=
  if rorDomain width.toNat shiftCount.toNat then
    .next (s.respond (.word (BitVec.ofNat 64 (rotateRightFn value.toNat shiftCount.toNat width.toNat))))
  else
    .refused .rorOutsideDomain

end Sys2Proof.Machine
end

