-- ==== Sys2Proof/Machine/Dispatch.lean ====
section
/-! DEFINITION. One arm per operation, each one call of its meaning. -/

namespace Sys2Proof.Machine

def exec (i : Instr) (s : State) : Host.Outcome State Fault Refusal :=
  match i with
  | .isBitSet bit value => Sys2Proof.Machine.execIsBitSet bit value s
  | .ones length => Sys2Proof.Machine.execOnes length s
  | .hsb value => Sys2Proof.Machine.execHsb value s
  | .replicate totalWidth esize value => Sys2Proof.Machine.execReplicate totalWidth esize value s
  | .ror width shiftCount value => Sys2Proof.Machine.execRor width shiftCount value s
  | .dbmL N imms immr => Sys2Proof.Machine.execDbmL N imms immr s
  | .dbmM N imms immr => Sys2Proof.Machine.execDbmM N imms immr s
  | .mwp sf immN imms immr => Sys2Proof.Machine.execMwp sf immN imms immr s

end Sys2Proof.Machine
end

