-- ==== Sys2Proof/Machine/Step.lean ====
section
/-! DEFINITION. One step: the caller presents its next request and the block evaluates it (R22, R38). -/

namespace Sys2Proof.Machine

/-- Take the next request and evaluate its operation. -/
def step (s : State) : Host.Outcome State Fault Refusal :=
  match fetch s with
  | .next (i, t) => exec i t
  | .fault f => .fault f
  | .refused r => .refused r

/-- `s` with the request a bare table word stands for presented next (log 2, log 4). A size that names no format
(`tableFormat`) leaves `s` as it is. -/
def State.withFetchWord (s : State) (nbits w : Nat) : State :=
  match tableRequest nbits w with
  | some r => s.present r
  | none => s

end Sys2Proof.Machine
end

