-- ==== Sys2Proof/Machine/Flags.lean ====
section
/-! DEFINITION. The output ports of R28 as views of `outputs`, the two one-bit results `undef` and `preferred` (R23) among
them, and the packed response words (R55, R57). No flag is stored: each port has a value only for the evaluation that
computed it (R23, R31). -/

namespace Sys2Proof.Machine

/-- Port `undef` of unit DBM (R101). -/
def portUndef (s : State) : Option Bit :=
  match s.outputs with
  | some (.wmask _) => some 0
  | some .undefined => some 1
  | _ => none

/-- Port `wmask` of unit DBM: no value when the outcome is Undefined (R55, R133; log 5). -/
def portWmask (s : State) : Option Word :=
  match s.outputs with
  | some (.wmask w) => some w
  | _ => none

/-- Port `preferred` of unit MWP: 1 for true, 0 for false (R116). -/
def portPreferred (s : State) : Option Bit :=
  match s.outputs with
  | some (.preferred p) => some (BitVec.ofBool p)
  | _ => none

/-- Port `q` of unit PRIM: 64 bits, of which `ISBITSET` uses bit 0 (R28). -/
def portQ (s : State) : Option Word :=
  match s.outputs with
  | some (.bit q) => some (q.setWidth 64)
  | some (.word q) => some q
  | _ => none

/-- Port `index` of unit PRIM, as the signed integer its seven bits stand for (R28, R74). -/
def portIndex (s : State) : Option Int :=
  match s.outputs with
  | some (.index i) => some i.toInt
  | _ => none

/-- The response word of a result, bit 0 lowest: `undef` is bit 64 and `wmask` bits 63:0 of unit DBM (R55); the others are
right-aligned (R53, R56, R57). When `undef = 1` bits 63:0 have no meaning and may be anything (D5), so they are an
ARGUMENT: a statement about the word holds for every value of `lines` (log 5). -/
def responseWord (lines : Word) : Response → BitVec 65
  | .bit q => q.setWidth 65
  | .word q => q.setWidth 65
  | .index i => i.setWidth 65
  | .wmask w => (0#1) ++ w
  | .undefined => (1#1) ++ lines
  | .preferred p => (BitVec.ofBool p).setWidth 65

/-- What a consumer reads from a response word in the format it asked in: when bit 64 of a DBM response is 1 it reads
Undefined and nothing of bits 63:0 (R55). -/
def readResponse (f : Format) (w : BitVec 65) : Response :=
  match f with
  | .pBit => .bit (w.extractLsb' 0 1)
  | .pLen => .word (w.extractLsb' 0 64)
  | .pVal => .index (w.extractLsb' 0 7)
  | .pRep => .word (w.extractLsb' 0 64)
  | .pRor => .word (w.extractLsb' 0 64)
  | .fDbm =>
    match w.getLsbD 64 with
    | true => .undefined
    | false => .wmask (w.extractLsb' 0 64)
  | .fMwp => .preferred (w.getLsbD 0)

/-- The bits of a format's response word (R53). -/
def responseBits : Format → Nat
  | .pBit => 1
  | .pLen => 64
  | .pVal => 7
  | .pRep => 64
  | .pRor => 64
  | .fDbm => 65
  | .fMwp => 1

end Sys2Proof.Machine
end

