-- ==== Sys2Proof/WellFormed.lean ====
section
/-! DEFINITION. Which operations the block gives a result: every one whose operands lie in the domain its rule states.
Only the primitives `ONES`, `REPLICATE` and `ROR` have operands outside their domain (R63, R139). -/

namespace Sys2Proof

/-- The operands lie in the operation's domain (R73, R78, R81); all operands of the other five do (R63). -/
def Instr.wellFormed : Instr → Bool
  | .isBitSet _ _ => true
  | .ones length => Machine.onesDomain length.toNat
  | .hsb _ => true
  | .replicate totalWidth esize _ => Machine.replicateDomain totalWidth.toNat esize.toNat
  | .ror width shiftCount _ => Machine.rorDomain width.toNat shiftCount.toNat
  | .dbmL _ _ _ => true
  | .dbmM _ _ _ => true
  | .mwp _ _ _ _ => true

end Sys2Proof
end

