-- ==== Sys2Proof/Safety.lean ====
section
/-! DEFINITION. What counts as a safe run: the caller presents only requests the block gives a result, so that no step is
refused; and which outputs are legal ones. -/

namespace Sys2Proof

/-- The request is presentable on its ports and its operands lie in their domain (R28, R139). -/
def Request.safe (r : Request) : Bool :=
  match decode r with
  | .ok i => i.wellFormed
  | .error _ => false

namespace Machine

/-- Every request the caller has yet to present is safe. -/
def State.safe (s : State) : Bool := s.requests.all Request.safe

/-- A value the block can put on its ports: an `index` lies in -1..63 (R74), and a `wmask` is not zero (R108(b)) and has the
shape of R106: one run of `s + 1` ones, rotated by `r`, in each element of 2, 4, 8, 16, 32 or 64 bits. -/
def Response.legal : Response → Prop
  | .bit _ => True
  | .word _ => True
  | .index i => -1 ≤ i.toInt ∧ i.toInt ≤ 63
  | .wmask w => w ≠ 0 ∧ ∃ length s r : Nat, 1 ≤ length ∧ length ≤ 6 ∧ s < 2 ^ length ∧ r < 2 ^ length ∧
      ∀ i < 64, w.getLsbD i = decide ((i % 2 ^ length + r) % 2 ^ length ≤ s)
  | .undefined => True
  | .preferred _ => True

/-- The output ports carry no value or a legal one. -/
def State.outputsLegal (s : State) : Prop := ∀ r, s.outputs = some r → r.legal

end Machine

end Sys2Proof
end

