-- ==== Sys2Proof/Certificates/Slice0/Obligations.lean ====
section
/-! DEFINITION. The statements about the block, each with the rule of spec/ it comes from. The first definitions are the
words the statements use, taken from the tables of the spec and not from the model's listing. -/

namespace Sys2Proof.Claims

/-- The element size for `N` and `imms`, by the table of R92; 0 where it says "none". -/
def esize (N : Bit) (imms : Field6) : Nat :=
  if N = 1 then 64
  else if imms.toNat < 32 then 32 else if imms.toNat < 48 then 16 else if imms.toNat < 56 then 8
  else if imms.toNat < 60 then 4 else if imms.toNat < 62 then 2 else 0

/-- The element length for `N` and `imms`, by the table of R92. -/
def length (N : Bit) (imms : Field6) : Int :=
  if N = 1 then 6
  else if imms.toNat < 32 then 5 else if imms.toNat < 48 then 4 else if imms.toNat < 56 then 3
  else if imms.toNat < 60 then 2 else if imms.toNat < 62 then 1 else if imms.toNat = 62 then 0 else -1

/-- Cause (a) of Undefined, by the list of R62. -/
abbrev causeA (N : Bit) (imms : Field6) : Prop := N = 0 ∧ (imms = 62 ∨ imms = 63)

/-- Cause (b) of Undefined, by the list of R62. -/
abbrev causeB (N : Bit) (imms : Field6) : Prop :=
  (N = 0 ∧ (imms = 61 ∨ imms = 59 ∨ imms = 55 ∨ imms = 47 ∨ imms = 31)) ∨ (N = 1 ∧ imms = 63)

/-- `s = imms & levels` with `levels = esize - 1` (R94, R96). -/
def runLast (N : Bit) (imms : Field6) : Nat := imms.toNat &&& (esize N imms - 1)

/-- `r = immr & levels` with `levels = esize - 1` (R94, R96). -/
def rotation (N : Bit) (imms immr : Field6) : Nat := immr.toNat &&& (esize N imms - 1)

/-- The number of bits set in a 64-bit value. -/
def popcount (w : Word) : Nat := (List.range 64).countP w.getLsbD

/-- The width of the predicate (R111). -/
def width (sf : Bit) : Nat := if sf = 1 then 64 else 32

/-- No port of units DBM and MWP has a value (R28, R31). -/
abbrev onlyPrimSpeaks (t : Machine.State) : Prop :=
  Machine.portUndef t = none ∧ Machine.portWmask t = none ∧ Machine.portPreferred t = none

/-- No port of units PRIM and MWP has a value (R28, R31). -/
abbrev onlyDbmSpeaks (t : Machine.State) : Prop :=
  Machine.portQ t = none ∧ Machine.portIndex t = none ∧ Machine.portPreferred t = none

/-- No port of units PRIM and DBM has a value (R28, R31). -/
abbrev onlyMwpSpeaks (t : Machine.State) : Prop :=
  Machine.portQ t = none ∧ Machine.portIndex t = none ∧ Machine.portUndef t = none ∧ Machine.portWmask t = none

/-- The domain of `REPLICATE` (R78). -/
abbrev replicateDomain (totalWidth esize : Nat) : Prop :=
  1 ≤ esize ∧ esize ≤ totalWidth ∧ totalWidth ≤ 64 ∧ esize ∣ totalWidth

/-- The domain of `ROR` (R81). -/
abbrev rorDomain (width shiftCount : Nat) : Prop := 1 ≤ width ∧ width ≤ 64 ∧ shiftCount < width

end Sys2Proof.Claims

open Sys2Proof Sys2Proof.Machine

/-! ### Reset, the caller, one step -/

/-- R30, R150, R151: nothing is reset and no output has a value before an input is driven. That the model then holds an empty
list of requests and no output is its own choice (log 2). -/
def Obligations.ResetLeavesNoValueOnAnyPort : Prop :=
  State.reset.requests = [] ∧ portUndef State.reset = none ∧ portWmask State.reset = none ∧
    portPreferred State.reset = none ∧ portQ State.reset = none ∧ portIndex State.reset = none

/-- R31, U10: the machine is stuck exactly when nothing drives its inputs, and for no other reason. The fault's name is the
model's choice (log 2). -/
def Obligations.StepFaultsExactlyWhenInputsUndriven : Prop :=
  ∀ (s : State), (s.requests = [] → step s = .fault .inputsUndriven) ∧
    (∀ f, step s = .fault f → s.requests = [])

/-- R53: a step evaluates the operation whose ports the caller's next request drives. That the caller's requests stand in a
list, from which a step takes the first, is the model's choice (log 1, DESIGN CHOICE): R22 leaves the order to the caller. -/
def Obligations.StepRunsTheDecodedRequest : Prop :=
  ∀ (s : State) (r : Request) (rest : List Request) (i : Instr),
    s.requests = r :: rest → decode r = .ok i → step s = exec i { s with requests := rest }

/-- R139, U3 to U6: a step is refused exactly when the next request has a line above its format's width driven, or its
operands lie outside the domain of R73, R78 or R81. The refusals are the model's (log 3, log 10). -/
def Obligations.StepRefusesExactlyOutsideTheDomains : Prop :=
  ∀ (r : Request) (rest : List Request) (o : Option Response),
    ((∃ x, step ⟨r :: rest, o⟩ = .refused x) ↔
      (2 ^ r.format.requestBits ≤ r.word.toNat ∨
        (∃ length, decode r = .ok (.ones length) ∧ 64 < length.toNat) ∨
        (∃ totalWidth esize value, decode r = .ok (.replicate totalWidth esize value) ∧
          ¬Claims.replicateDomain totalWidth.toNat esize.toNat) ∨
        (∃ width shiftCount value, decode r = .ok (.ror width shiftCount value) ∧
          ¬Claims.rorDomain width.toNat shiftCount.toNat)))

/-! ### Encoding -/

/-- R52, R54, R56, R57: reading a packed operation gives it back, every operand at every value. -/
def Obligations.DecodeOfEncodeIsTheOperation : Prop := ∀ (i : Instr), decode (encode i) = .ok i

/-- R52, R54, R56, R57: a request word that reads as an operation is that operation's packed word, so no two words of a
format read alike and no bit of a word is dropped. -/
def Obligations.EncodeOfDecodeIsTheRequest : Prop := ∀ (r : Request) (i : Instr), decode r = .ok i → encode i = r

/-- R52, R54, R56, R57: the fields of each request word at their bit positions. -/
def Obligations.RequestWordsHaveTheSpecsLayout : Prop :=
  (∀ bit value, (encode (.isBitSet bit value)).format = .pBit ∧
    (encode (.isBitSet bit value)).word.toNat = bit.toNat * 2 ^ 64 + value.toNat) ∧
  (∀ length, (encode (.ones length)).format = .pLen ∧ (encode (.ones length)).word.toNat = length.toNat) ∧
  (∀ value, (encode (.hsb value)).format = .pVal ∧ (encode (.hsb value)).word.toNat = value.toNat) ∧
  (∀ totalWidth esize value, (encode (.replicate totalWidth esize value)).format = .pRep ∧
    (encode (.replicate totalWidth esize value)).word.toNat =
      totalWidth.toNat * 2 ^ 71 + esize.toNat * 2 ^ 64 + value.toNat) ∧
  (∀ width shiftCount value, (encode (.ror width shiftCount value)).format = .pRor ∧
    (encode (.ror width shiftCount value)).word.toNat =
      width.toNat * 2 ^ 70 + shiftCount.toNat * 2 ^ 64 + value.toNat) ∧
  (∀ N imms immr, (encode (.dbmL N imms immr)).format = .fDbm ∧
    (encode (.dbmL N imms immr)).word.toNat = 2 ^ 13 + N.toNat * 2 ^ 12 + immr.toNat * 2 ^ 6 + imms.toNat) ∧
  (∀ N imms immr, (encode (.dbmM N imms immr)).format = .fDbm ∧
    (encode (.dbmM N imms immr)).word.toNat = N.toNat * 2 ^ 12 + immr.toNat * 2 ^ 6 + imms.toNat) ∧
  (∀ sf immN imms immr, (encode (.mwp sf immN imms immr)).format = .fMwp ∧
    (encode (.mwp sf immN imms immr)).word.toNat =
      sf.toNat * 2 ^ 13 + immN.toNat * 2 ^ 12 + immr.toNat * 2 ^ 6 + imms.toNat)

/-- R54, R56, R57: every word that fits its format is read as some operation; a wider one is refused (U6, log 3). -/
def Obligations.DecoderAcceptsExactlyTheWordsThatFit : Prop :=
  ∀ (r : Request),
    (r.word.toNat < 2 ^ (match r.format with
      | .pBit => 70 | .pLen => 7 | .pVal => 64 | .pRep => 78 | .pRor => 77 | .fDbm => 14 | .fMwp => 14)
      ↔ ∃ i, decode r = .ok i)

/-- Request words of 95_test_vectors.md (D31, D61, M12, and program 2) read as the operations the tables name. -/
def Obligations.WordsOfTheSpecDecode : Prop :=
  decode ⟨.fDbm, 0x20B3⟩ = .ok (.dbmL 0 51 2) ∧
  decode ⟨.fDbm, 0x103F⟩ = .ok (.dbmM 1 63 0) ∧
  decode ⟨.fMwp, 0x3E07⟩ = .ok (.mwp 1 1 7 56) ∧
  decode ⟨.pVal, 0xC⟩ = .ok (.hsb 0xC) ∧
  decode ⟨.pLen, 0x03⟩ = .ok (.ones 3) ∧
  decode ⟨.pRor, 0x0202000000000000000F⟩ = .ok (.ror 8 2 0xF) ∧
  decode ⟨.pRep, 0x200800000000000000C3⟩ = .ok (.replicate 64 8 0xC3)

/-! ### Unit PRIM -/

/-- R71. -/
def Obligations.IsBitSetReturnsTheBit : Prop :=
  ∀ (bit : Field6) (value : Word) (s : State),
    exec (.isBitSet bit value) s =
      .next { s with outputs := some (.bit (if value.getLsbD bit.toNat then 1 else 0)) }

/-- R72: `2^length - 1`, the low `length` bits set. -/
def Obligations.OnesReturnsTheLowBitsSet : Prop :=
  ∀ (length : Field7) (s : State), length.toNat ≤ 64 →
    ∃ q : Word, exec (.ones length) s = .next { s with outputs := some (.word q) } ∧
      q.toNat = 2 ^ length.toNat - 1 ∧ ∀ i < 64, q.getLsbD i = decide (i < length.toNat)

/-- R73: 64 is inside the domain and gives all ones; beyond it the model refuses (D10, log 10). -/
def Obligations.OnesAtAndBeyondTheEndOfItsDomain : Prop :=
  ∀ (s : State), exec (.ones 64) s = .next { s with outputs := some (.word (BitVec.allOnes 64)) } ∧
    ∀ (length : Field7), 64 < length.toNat → exec (.ones length) s = .refused .onesLengthOutsideDomain

/-- R74: the index of the highest set bit, -1 when there is none. -/
def Obligations.HsbReturnsTheHighestSetBit : Prop :=
  ∀ (value : Word) (s : State),
    ∃ i : Field7, exec (.hsb value) s = .next { s with outputs := some (.index i) } ∧
      ((value = 0 ∧ i.toInt = -1) ∨
       (∃ k : Nat, k < 64 ∧ i.toInt = k ∧ value.getLsbD k = true ∧ ∀ j, k < j → value.getLsbD j = false))

/-- R76: bit `i` is `value[i mod esize]` below `totalWidth` and 0 above. -/
def Obligations.ReplicateTilesTheLowBits : Prop :=
  ∀ (totalWidth esize : Field7) (value : Word) (s : State), Claims.replicateDomain totalWidth.toNat esize.toNat →
    ∃ q : Word, exec (.replicate totalWidth esize value) s = .next { s with outputs := some (.word q) } ∧
      ∀ i < 64, q.getLsbD i = (decide (i < totalWidth.toNat) && value.getLsbD (i % esize.toNat))

/-- R78, R139: outside the domain the model refuses (D13, log 10). -/
def Obligations.ReplicateOutsideItsDomainIsRefused : Prop :=
  ∀ (totalWidth esize : Field7) (value : Word) (s : State), ¬Claims.replicateDomain totalWidth.toNat esize.toNat →
    exec (.replicate totalWidth esize value) s = .refused .replicateOutsideDomain

/-- R79: bit `j` is `value[(j + shiftCount) mod width]` below `width` and 0 above. -/
def Obligations.RorRotatesTheLowBits : Prop :=
  ∀ (width : Field7) (shiftCount : Field6) (value : Word) (s : State), Claims.rorDomain width.toNat shiftCount.toNat →
    ∃ q : Word, exec (.ror width shiftCount value) s = .next { s with outputs := some (.word q) } ∧
      ∀ j < 64, q.getLsbD j =
        (decide (j < width.toNat) && value.getLsbD ((j + shiftCount.toNat) % width.toNat))

/-- R81, R139: outside the domain the model refuses (D14, log 10). -/
def Obligations.RorOutsideItsDomainIsRefused : Prop :=
  ∀ (width : Field7) (shiftCount : Field6) (value : Word) (s : State), ¬Claims.rorDomain width.toNat shiftCount.toNat →
    exec (.ror width shiftCount value) s = .refused .rorOutsideDomain

/-- R82: `RotateRight(v, 0, width) == v & Ones(width)` and `Replicate(v, esize, esize) == v & Ones(esize)`. -/
def Obligations.RotateByZeroAndReplicateOnceMaskTheValue : Prop :=
  ∀ (v : Word) (n : Field7) (s : State), 1 ≤ n.toNat → n.toNat ≤ 64 →
    ∃ mask : Word, exec (.ones n) s = .next { s with outputs := some (.word mask) } ∧
      exec (.ror n 0 v) s = .next { s with outputs := some (.word (v &&& mask)) } ∧
      exec (.replicate n n v) s = .next { s with outputs := some (.word (v &&& mask)) }

/-- R83, the laws of `HSB`: of `Ones(n)`, of `1 << k`, and against `ISBITSET`. -/
def Obligations.HsbAgreesWithOnesAndIsBitSet : Prop :=
  ∀ (s : State),
    (∀ n : Field7, n.toNat ≤ 64 → ∃ (q : Word) (i : Field7),
      exec (.ones n) s = .next { s with outputs := some (.word q) } ∧
      exec (.hsb q) s = .next { s with outputs := some (.index i) } ∧ i.toInt = (n.toNat : Int) - 1) ∧
    (∀ k : Nat, k < 64 → exec (.hsb (1#64 <<< k)) s = .next { s with outputs := some (.index (BitVec.ofNat 7 k)) }) ∧
    (∀ v : Word, v ≠ 0 → ∃ k : Field6,
      exec (.hsb v) s = .next { s with outputs := some (.index (k.setWidth 7)) } ∧
      exec (.isBitSet k v) s = .next { s with outputs := some (.bit 1) } ∧
      ∀ j : Field6, k.toNat < j.toNat → exec (.isBitSet j v) s = .next { s with outputs := some (.bit 0) })

/-- R83, the laws of `ROR`: two rotations add up modulo the width, and a full run of ones is unchanged by any. -/
def Obligations.RotationsComposeModuloTheWidth : Prop :=
  ∀ (w : Field7) (a b : Field6) (v : Word) (s : State), w.toNat ≤ 64 → a.toNat < w.toNat → b.toNat < w.toNat →
    (∃ q : Word, exec (.ror w a v) s = .next { s with outputs := some (.word q) } ∧
      exec (.ror w b q) s = exec (.ror w (BitVec.ofNat 6 ((a.toNat + b.toNat) % w.toNat)) v) s) ∧
    (∃ mask : Word, exec (.ones w) s = .next { s with outputs := some (.word mask) } ∧
      exec (.ror w a mask) s = .next { s with outputs := some (.word mask) })

/-- R83, the counts of set bits: `ROR` keeps those of the low `width` bits. -/
def Obligations.RotationKeepsTheNumberOfSetBits : Prop :=
  ∀ (w : Field7) (k : Field6) (v : Word) (s : State), Claims.rorDomain w.toNat k.toNat →
    ∃ q mask : Word, exec (.ror w k v) s = .next { s with outputs := some (.word q) } ∧
      exec (.ones w) s = .next { s with outputs := some (.word mask) } ∧
      Claims.popcount q = Claims.popcount (v &&& mask)

/-- R83, the counts of set bits: `REPLICATE` multiplies those of the low `esize` bits by the number of copies. -/
def Obligations.ReplicateMultipliesTheNumberOfSetBits : Prop :=
  ∀ (t e : Field7) (v : Word) (s : State), Claims.replicateDomain t.toNat e.toNat →
    ∃ q mask : Word, exec (.replicate t e v) s = .next { s with outputs := some (.word q) } ∧
      exec (.ones e) s = .next { s with outputs := some (.word mask) } ∧
      Claims.popcount q = t.toNat / e.toNat * Claims.popcount (v &&& mask)

/-- R83: tiling 64 bits from an element or from two copies of it gives the same, and `Ones(a) & Ones(b) = Ones(min(a, b))`. -/
def Obligations.TilingFromTwoCopiesIsTheSame : Prop :=
  ∀ (v : Word) (s : State),
    (∀ e : Field7, e ∈ [1, 2, 4, 8, 16, 32] →
      ∃ q : Word, exec (.replicate (2 * e) e v) s = .next { s with outputs := some (.word q) } ∧
        exec (.replicate 64 (2 * e) q) s = exec (.replicate 64 e v) s) ∧
    (∀ a b : Field7, a.toNat ≤ 64 → b.toNat ≤ 64 →
      ∃ x y : Word, exec (.ones a) s = .next { s with outputs := some (.word x) } ∧
        exec (.ones b) s = .next { s with outputs := some (.word y) } ∧
        exec (.ones (if a.toNat ≤ b.toNat then a else b)) s = .next { s with outputs := some (.word (x &&& y)) })

/-! ### Unit DBM -/

/-- R92: `length = HSB(N : NOT_6(imms))`, by the table of the rule, and `HSB` answers it for that operand. -/
def Obligations.ElementLengthFollowsTheTable : Prop :=
  ∀ (N : Bit) (imms : Field6) (s : State),
    elementLength N imms = Claims.length N imms ∧
    ∃ i : Field7, exec (.hsb ((N ++ ~~~imms).setWidth 64)) s = .next { s with outputs := some (.index i) } ∧
      i.toInt = Claims.length N imms

/-- R93: `length < 1`, which is `N = 0` with `imms` 62 or 63, is Undefined under both operations and for every `immr`. -/
def Obligations.NoElementSizeIsUndefined : Prop :=
  ∀ (N : Bit) (imms immr : Field6) (s : State),
    (elementLength N imms < 1 ↔ Claims.causeA N imms) ∧
    (elementLength N imms < 1 →
      exec (.dbmL N imms immr) s = .next { s with outputs := some .undefined } ∧
      exec (.dbmM N imms immr) s = .next { s with outputs := some .undefined })

/-- R95: with a valid element size, `DBM.L` rejects exactly the requests whose significant bits of `imms` are all 1, which
are six `(N, imms)`; `DBM.M` rejects none and gives all ones there. -/
def Obligations.AllOnesRunIsRejectedInLogicalContextOnly : Prop :=
  ∀ (N : Bit) (imms immr : Field6) (s : State), ¬Claims.causeA N imms →
    (imms.toNat &&& (Claims.esize N imms - 1) = Claims.esize N imms - 1 ↔ Claims.causeB N imms) ∧
    (Claims.causeB N imms →
      exec (.dbmL N imms immr) s = .next { s with outputs := some .undefined } ∧
      exec (.dbmM N imms immr) s = .next { s with outputs := some (.wmask (BitVec.allOnes 64)) }) ∧
    (¬Claims.causeB N imms → ∃ w : Word, exec (.dbmL N imms immr) s = .next { s with outputs := some (.wmask w) }) ∧
    (∃ w : Word, exec (.dbmM N imms immr) s = .next { s with outputs := some (.wmask w) })

/-- R106, the closed form of the listing R102: bit `i` is set exactly when `((i mod esize) + r) mod esize <= s`. -/
def Obligations.DecoderResultHasTheClosedForm : Prop :=
  ∀ (N : Bit) (imms immr : Field6) (s : State), ¬Claims.causeA N imms →
    ∃ w : Word,
      exec (.dbmM N imms immr) s = .next { s with outputs := some (.wmask w) } ∧
      (¬Claims.causeB N imms → exec (.dbmL N imms immr) s = .next { s with outputs := some (.wmask w) }) ∧
      ∀ i < 64, w.getLsbD i =
        decide ((i % Claims.esize N imms + Claims.rotation N imms immr) % Claims.esize N imms ≤ Claims.runLast N imms)

/-- R104: where `DBM.L` returns a value, `DBM.M` returns the same value. -/
def Obligations.DbmMAgreesWhereDbmLHasAValue : Prop :=
  ∀ (N : Bit) (imms immr : Field6) (s : State) (w : Word),
    exec (.dbmL N imms immr) s = .next { s with outputs := some (.wmask w) } →
    exec (.dbmM N imms immr) s = .next { s with outputs := some (.wmask w) }

/-- R96, R108(d): the outcome depends on `immr` only through `immr & levels`. -/
def Obligations.UpperBitsOfImmrAreIgnored : Prop :=
  ∀ (N : Bit) (imms immr immr' : Field6) (s : State),
    Claims.rotation N imms immr = Claims.rotation N imms immr' →
    exec (.dbmL N imms immr) s = exec (.dbmL N imms immr') s ∧
    exec (.dbmM N imms immr) s = exec (.dbmM N imms immr') s

/-- R108(e), C4: under `DBM.L` a value determines `N`, `imms` and `immr & levels`. -/
def Obligations.DbmLValueDeterminesTheFields : Prop :=
  ∀ (N N' : Bit) (imms immr imms' immr' : Field6) (s : State) (w : Word),
    exec (.dbmL N imms immr) s = .next { s with outputs := some (.wmask w) } →
    exec (.dbmL N' imms' immr') s = .next { s with outputs := some (.wmask w) } →
    N = N' ∧ imms = imms' ∧ Claims.rotation N imms immr = Claims.rotation N' imms' immr'

/-- R108(a): `popcount(wmask) = (s + 1) * (64 / esize)`. -/
def Obligations.WmaskPopcountIsRunLengthTimesElements : Prop :=
  ∀ (N : Bit) (imms immr : Field6) (s : State), ¬Claims.causeA N imms →
    ∃ w : Word, exec (.dbmM N imms immr) s = .next { s with outputs := some (.wmask w) } ∧
      Claims.popcount w = (Claims.runLast N imms + 1) * (64 / Claims.esize N imms)

/-- R108(b): `wmask` is never 0, and is all ones exactly when `s = esize - 1`, which needs `L = 0`. -/
def Obligations.WmaskIsNeverZeroAndAllOnesOnlyForAFullRun : Prop :=
  ∀ (N : Bit) (imms immr : Field6) (s : State) (w : Word),
    (exec (.dbmM N imms immr) s = .next { s with outputs := some (.wmask w) } →
      w ≠ 0 ∧ (w = BitVec.allOnes 64 ↔ Claims.runLast N imms = Claims.esize N imms - 1)) ∧
    (exec (.dbmL N imms immr) s = .next { s with outputs := some (.wmask w) } → w ≠ 0 ∧ w ≠ BitVec.allOnes 64)

/-- R108(c), R105: `wmask` is periodic with period `esize`, and for `N = 0` its two halves are equal, so that the caller's
truncation to 32 bits loses nothing. -/
def Obligations.WmaskIsPeriodicInTheElement : Prop :=
  ∀ (N : Bit) (imms immr : Field6) (s : State) (w : Word),
    exec (.dbmM N imms immr) s = .next { s with outputs := some (.wmask w) } →
    (∀ i < 64, w.getLsbD i = w.getLsbD (i % Claims.esize N imms)) ∧
    (N = 0 → w.extractLsb' 32 32 = w.extractLsb' 0 32)

/-- R102, and program 2 of 95_test_vectors.md for every request: the caller rebuilds the decoder's value from the primitives,
each through its own operation. -/
def Obligations.PrimitivesRebuildTheDecoder : Prop :=
  ∀ (N : Bit) (imms immr : Field6) (s : State), ¬Claims.causeA N imms →
    ∃ (len size : Field7) (levels welem elem w : Word),
      exec (.hsb ((N ++ ~~~imms).setWidth 64)) s = .next { s with outputs := some (.index len) } ∧
      exec (.ones len) s = .next { s with outputs := some (.word levels) } ∧
      size.toNat = 2 ^ len.toNat ∧
      exec (.ones ((imms.setWidth 64 &&& levels).setWidth 7 + 1)) s = .next { s with outputs := some (.word welem) } ∧
      exec (.ror size ((immr.setWidth 64 &&& levels).setWidth 6) welem) s = .next { s with outputs := some (.word elem) } ∧
      exec (.replicate 64 size elem) s = .next { s with outputs := some (.word w) } ∧
      exec (.dbmM N imms immr) s = .next { s with outputs := some (.wmask w) }

/-! ### Unit MWP -/

/-- R111 to R116, one clause a step; rests on the spec's decisions D6, D7, D8 and D9 (log 7, log 8, log 9). The last
conjunct of the third clause is the other value of the parameter, which `exec` is not built with. -/
def Obligations.MoveWidePreferredStepByStep : Prop :=
  ∀ (sf immN : Bit) (imms immr : Field6) (s : State),
    (immN ≠ sf → exec (.mwp sf immN imms immr) s = .next { s with outputs := some (.preferred false) }) ∧
    (immN = sf → imms.toNat < 16 → exec (.mwp sf immN imms immr) s = .next
      { s with outputs := some (.preferred (decide ((-(immr.toNat : Int)) % 16 ≤ 15 - (imms.toNat : Int)))) }) ∧
    (immN = sf → 16 ≤ imms.toNat → Claims.width sf - 15 ≤ imms.toNat →
      exec (.mwp sf immN imms immr) s = .next
        { s with outputs := some (.preferred (decide ((immr.toNat : Int) % 16 ≤ imms.toNat - Claims.width sf - 15))) } ∧
      moveWidePreferred .symmetric sf immN imms immr =
        decide ((immr.toNat : Int) % 16 ≤ imms.toNat - ((Claims.width sf : Int) - 15))) ∧
    (immN = sf → 16 ≤ imms.toNat → imms.toNat < Claims.width sf - 15 →
      exec (.mwp sf immN imms immr) s = .next { s with outputs := some (.preferred false) })

/-- R118, the column "true exactly when" of the truth table under `verbatim`. It rests on the formula verbatim (log 7), on the
floored modulus (log 8) and, in the rows `sf = immN = 0` with `imms` from 47, on bit 5 of `imms` not being tested (log 9). -/
def Obligations.MoveWidePreferredTruthTable : Prop :=
  ∀ (sf immN : Bit) (imms immr : Field6) (s : State),
    ∃ p : Bool, exec (.mwp sf immN imms immr) s = .next { s with outputs := some (.preferred p) } ∧
      (p = true ↔
        (immN = sf ∧ imms.toNat < 16 ∧ (16 - immr.toNat % 16) % 16 + imms.toNat ≤ 15) ∨
        (sf = 0 ∧ immN = 0 ∧ 47 ≤ imms.toNat ∧ imms.toNat ≤ 62 ∧ immr.toNat % 16 + 47 ≤ imms.toNat) ∨
        (sf = 0 ∧ immN = 0 ∧ imms.toNat = 63))

/-- R119, the rows that change when the parameter is `symmetric`; not in the source (G1, log 7). The row `imms < 16` rests on
the floored modulus (log 8), and the row `sf = immN = 0` with `imms` from 32 on bit 5 of `imms` not being tested (log 9). -/
def Obligations.SymmetricParameterTruthTable : Prop :=
  ∀ (sf immN : Bit) (imms immr : Field6),
    moveWidePreferred .symmetric sf immN imms immr = true ↔
      (immN = sf ∧ imms.toNat < 16 ∧ (16 - immr.toNat % 16) % 16 + imms.toNat ≤ 15) ∨
      (sf = 1 ∧ immN = 1 ∧ 49 ≤ imms.toNat ∧ immr.toNat % 16 + 49 ≤ imms.toNat) ∨
      (sf = 0 ∧ immN = 0 ∧ 17 ≤ imms.toNat ∧ imms.toNat ≤ 31 ∧ immr.toNat % 16 + 17 ≤ imms.toNat) ∨
      (sf = 0 ∧ immN = 0 ∧ 32 ≤ imms.toNat)

/-- R120: the predicate can be true of a triple the decoder answers with Undefined under both operations. That it is true
there rests on bit 5 of `imms` not being tested (D9, log 9) and on the formula verbatim (log 7). -/
def Obligations.PreferredDoesNotImplyDefined : Prop :=
  ∀ (immr : Field6) (s : State),
    exec (.mwp 0 0 63 immr) s = .next { s with outputs := some (.preferred true) } ∧
    exec (.dbmL 0 63 immr) s = .next { s with outputs := some .undefined } ∧
    exec (.dbmM 0 63 immr) s = .next { s with outputs := some .undefined }

/-- R121: for `imms < 16` and an element as wide as the result, the predicate holds exactly when all set bits of the value
the decoder gives lie inside one 16-bit halfword. It rests on the floored modulus (D6, log 8). -/
def Obligations.MovzTestMeansOneHalfword : Prop :=
  ∀ (sf : Bit) (imms immr : Field6) (s : State), imms.toNat < 16 →
    ∃ (w : Word) (p : Bool),
      exec (.dbmL sf imms immr) s = .next { s with outputs := some (.wmask w) } ∧
      exec (.mwp sf sf imms immr) s = .next { s with outputs := some (.preferred p) } ∧
      (p = true ↔ ∃ h, ∀ i, i < Claims.width sf → w.getLsbD i = true → i / 16 = h)

/-! ### The whole machine -/

/-- R63, R101, R116, R139, and the frame of every operation: an operation whose operands lie in its domain answers a next
state that differs from the one before in the output ports alone; any other is refused (the spec's decisions D10, D13, D14;
log 10); none faults. Every `DBM.L`, `DBM.M`, `MWP`, `ISBITSET` and `HSB` is in its domain, and `ONES`, `REPLICATE` and `ROR`
are in theirs exactly by R73, R78 and R81. -/
def Obligations.EveryOperationInItsDomainCompletes : Prop :=
  ∀ (i : Instr) (s : State),
    (i.wellFormed = true → ∃ r : Response, exec i s = .next { s with outputs := some r }) ∧
    (i.wellFormed = false → ∃ x : Refusal, exec i s = .refused x) ∧
    (∀ N imms immr, (Instr.dbmL N imms immr).wellFormed = true ∧ (Instr.dbmM N imms immr).wellFormed = true) ∧
    (∀ sf immN imms immr, (Instr.mwp sf immN imms immr).wellFormed = true) ∧
    (∀ bit value, (Instr.isBitSet bit value).wellFormed = true ∧ (Instr.hsb value).wellFormed = true) ∧
    (∀ length, (Instr.ones length).wellFormed = true ↔ length.toNat ≤ 64) ∧
    (∀ totalWidth esize value, (Instr.replicate totalWidth esize value).wellFormed = true ↔
      Claims.replicateDomain totalWidth.toNat esize.toNat) ∧
    (∀ width shiftCount value, (Instr.ror width shiftCount value).wellFormed = true ↔
      Claims.rorDomain width.toNat shiftCount.toNat)

/-- R131: Undefined comes from the decoder alone, cause (a) under both operations and cause (b) under `DBM.L` only, and both
causes do arise. -/
def Obligations.UndefinedComesFromTheDecoderAlone : Prop :=
  (∀ (i : Instr) (s t : State), exec i s = .next t → t.outputs = some .undefined →
    (∃ N imms immr, i = .dbmL N imms immr ∧ (Claims.causeA N imms ∨ Claims.causeB N imms)) ∨
    (∃ N imms immr, i = .dbmM N imms immr ∧ Claims.causeA N imms)) ∧
  (∀ (N : Bit) (imms immr : Field6) (s : State),
    (Claims.causeA N imms ∨ Claims.causeB N imms →
      exec (.dbmL N imms immr) s = .next { s with outputs := some .undefined }) ∧
    (Claims.causeA N imms → exec (.dbmM N imms immr) s = .next { s with outputs := some .undefined }))

/-- R53, R55, R57: the result of every operation fits its response word and is read back from it, whatever bits 63:0 carry
when the outcome is Undefined. -/
def Obligations.ResponseWordsCarryTheResult : Prop :=
  ∀ (i : Instr) (s t : State), exec i s = .next t →
    ∃ r : Response, t.outputs = some r ∧ ∀ lines : Word,
      (responseWord lines r).toNat < 2 ^ responseBits (encode i).format ∧
      readResponse (encode i).format (responseWord lines r) = r

/-- R55, R101: `undef` is bit 64 and `wmask` bits 63:0; with `undef = 1` those bits are free (log 5) and port `wmask` has no
value. That with either outcome no port of another unit has one is the model's choice of driving one unit a step (log 1);
R31 says only that the outputs of an undriven unit have no value. -/
def Obligations.UndefIsBit64OfTheDecoderResponse : Prop :=
  ∀ (w lines : Word) (requests : List Request),
    responseWord lines (.wmask w) = (0#1) ++ w ∧ responseWord lines .undefined = (1#1) ++ lines ∧
    portUndef ⟨requests, some (.wmask w)⟩ = some 0 ∧ portWmask ⟨requests, some (.wmask w)⟩ = some w ∧
    portUndef ⟨requests, some .undefined⟩ = some 1 ∧ portWmask ⟨requests, some .undefined⟩ = none ∧
    ∀ r, r = .wmask w ∨ r = .undefined →
      portPreferred ⟨requests, some r⟩ = none ∧ portQ ⟨requests, some r⟩ = none ∧ portIndex ⟨requests, some r⟩ = none

/-- R28, R71, R72, R74, R76, R79, and R31 for the silent ports: what ports `q` and `index` of unit PRIM carry after each of its
operations; the other of the two, and the ports of units DBM and MWP, have no value. That a port not evaluated in a step has
no value is the model's choice (log 1). -/
def Obligations.PrimPortsCarryTheResultAlone : Prop :=
  ∀ (s : State),
    (∀ (bit : Field6) (value : Word), ∃ t, exec (.isBitSet bit value) s = .next t ∧
      Claims.onlyPrimSpeaks t ∧ portQ t = some (if value.getLsbD bit.toNat then 1 else 0) ∧ portIndex t = none) ∧
    (∀ length : Field7, length.toNat ≤ 64 → ∃ t q, exec (.ones length) s = .next t ∧
      Claims.onlyPrimSpeaks t ∧ portQ t = some q ∧ portIndex t = none ∧ q.toNat = 2 ^ length.toNat - 1) ∧
    (∀ value : Word, ∃ t i, exec (.hsb value) s = .next t ∧
      Claims.onlyPrimSpeaks t ∧ portQ t = none ∧ portIndex t = some i ∧
      ((value = 0 ∧ i = -1) ∨
       (∃ k : Nat, k < 64 ∧ i = k ∧ value.getLsbD k = true ∧ ∀ j, k < j → value.getLsbD j = false))) ∧
    (∀ (totalWidth esize : Field7) (value : Word), Claims.replicateDomain totalWidth.toNat esize.toNat →
      ∃ t q, exec (.replicate totalWidth esize value) s = .next t ∧
        Claims.onlyPrimSpeaks t ∧ portQ t = some q ∧ portIndex t = none ∧
        ∀ i < 64, q.getLsbD i = (decide (i < totalWidth.toNat) && value.getLsbD (i % esize.toNat))) ∧
    (∀ (width : Field7) (shiftCount : Field6) (value : Word), Claims.rorDomain width.toNat shiftCount.toNat →
      ∃ t q, exec (.ror width shiftCount value) s = .next t ∧
        Claims.onlyPrimSpeaks t ∧ portQ t = some q ∧ portIndex t = none ∧
        ∀ j < 64, q.getLsbD j =
          (decide (j < width.toNat) && value.getLsbD ((j + shiftCount.toNat) % width.toNat)))

/-- R28, R101, and R31 for the silent ports: what ports `undef` and `wmask` carry after each operation of unit DBM; the ports
of units PRIM and MWP have no value (the model's choice, log 1). -/
def Obligations.DbmPortsCarryTheOutcomeAlone : Prop :=
  ∀ (N : Bit) (imms immr : Field6) (s : State),
    ∃ t u, exec (.dbmL N imms immr) s = .next t ∧ exec (.dbmM N imms immr) s = .next u ∧
      Claims.onlyDbmSpeaks t ∧ Claims.onlyDbmSpeaks u ∧
      (Claims.causeA N imms ∨ Claims.causeB N imms → portUndef t = some 1 ∧ portWmask t = none) ∧
      (Claims.causeA N imms → portUndef u = some 1 ∧ portWmask u = none) ∧
      (¬Claims.causeA N imms → ∃ w, portUndef u = some 0 ∧ portWmask u = some w ∧
        (¬Claims.causeB N imms → portUndef t = some 0 ∧ portWmask t = some w) ∧
        ∀ i < 64, w.getLsbD i =
          decide ((i % Claims.esize N imms + Claims.rotation N imms immr) % Claims.esize N imms ≤ Claims.runLast N imms))

/-- R28, R116, and R31 for the silent ports: port `preferred` carries 1 for true and 0 for false after `MWP`; the ports of units
PRIM and DBM have no value (the model's choice, log 1). When the predicate is true rests on log 7, log 8 and log 9. -/
def Obligations.MwpPortCarriesTheBooleanAlone : Prop :=
  ∀ (sf immN : Bit) (imms immr : Field6) (s : State),
    ∃ t, exec (.mwp sf immN imms immr) s = .next t ∧ Claims.onlyMwpSpeaks t ∧
      portPreferred t = some (if
        (immN = sf ∧ imms.toNat < 16 ∧ (16 - immr.toNat % 16) % 16 + imms.toNat ≤ 15) ∨
        (sf = 0 ∧ immN = 0 ∧ 47 ≤ imms.toNat ∧ imms.toNat ≤ 62 ∧ immr.toNat % 16 + 47 ≤ imms.toNat) ∨
        (sf = 0 ∧ immN = 0 ∧ imms.toNat = 63) then 1 else 0)

/-- R20: the result of an operation is a function of its operands; it is the same in every state, whatever was evaluated
before. -/
def Obligations.ResultsDependOnTheOperandsAlone : Prop :=
  ∀ (i : Instr) (s s' t : State), exec i s = .next t → exec i s' = .next { s' with outputs := t.outputs }

/-- R38: repeating an evaluation returns the same result and changes nothing. -/
def Obligations.RepeatingAnEvaluationChangesNothing : Prop :=
  ∀ (i : Instr) (s t : State), exec i s = .next t → exec i t = .next t

/-- R153, R20: after any sequence of requests the block gives the next one the result of its own inputs, the one it gives when
that request is all there ever was. That the requests are taken one after another off a list is the model's choice (log 1,
log 11). -/
def Obligations.AnySequenceGivesEachRequestItsOwnResult : Prop :=
  ∀ (earlier later : List Request) (r : Request) (o : Option Response),
    earlier.all Request.safe = true → r.safe = true →
    ∃ t u : State,
      Host.Core.run Sys2Proof.core (earlier.length + 1) (⟨earlier ++ r :: later, o⟩ : State) = .next t ∧
      step ⟨[r], none⟩ = .next u ∧ t.requests = later ∧ t.outputs = u.outputs

/-- R74, R106, R108(b) as an invariant: after every step the ports carry no value or a legal one, an `index` of -1..63 or a
`wmask` that is not zero and has one rotated run of ones in each element. -/
def Obligations.StepKeepsTheOutputsLegal : Prop :=
  ∀ (s t : State), s.outputsLegal → step s = .next t → t.outputsLegal

/-- The invariant holds at reset, where no port has a value (R151; log 2). -/
def Obligations.ResetOutputsAreLegal : Prop := State.reset.outputsLegal

/-- R139, R156: from a state whose requests are all in their domains, every step is answered and leaves a state of the same
kind. That a step takes one request off the caller's list is the model's choice (log 1). -/
def Obligations.SafeRequestsAreAllAnswered : Prop :=
  ∀ (s : State), s.safe = true → s.requests ≠ [] →
    ∃ t : State, step s = .next t ∧ t.safe = true ∧ t.requests = s.requests.tail ∧ t.outputs ≠ none
end

