-- ==== Sys2Proof/Laws/Core.lean ====
section
/-! SUPPORT. Running the machine one step further. -/

namespace Sys2Proof.Machine

/-- A run that begins with an answered step goes on from the state it leaves. -/
theorem core_run_next {k : Nat} {s t : State} (h : step s = .next t) :
    Host.Core.run Sys2Proof.core (k + 1) s = Host.Core.run Sys2Proof.core k t := by
  have h' : Sys2Proof.core.step s = .next t := h
  simp only [Host.Core.run, h']

end Sys2Proof.Machine
end

