-- ==== Sys2Proof/Laws/Primitives.lean ====
section
/-! SUPPORT. One lemma per primitive that says, bit by bit, what it computes; proofs cite these and unfold no primitive. -/

namespace Sys2Proof.Machine

theorem isBitSetFn_eq_one_iff (v b : Nat) : isBitSetFn v b = 1 ↔ v.testBit b = true := by
  simp [isBitSetFn, Nat.testBit_eq_decide_div_mod_eq, Nat.shiftRight_eq_div_pow]

theorem isBitSetFn_eq_toNat (v b : Nat) : isBitSetFn v b = (v.testBit b).toNat := by
  have h : isBitSetFn v b = 0 ∨ isBitSetFn v b = 1 := by simp only [isBitSetFn, Nat.and_one_is_mod]; omega
  have h1 := isBitSetFn_eq_one_iff v b
  cases hb : v.testBit b <;> simp_all

@[simp] theorem onesFn_testBit (n i : Nat) : (onesFn n).testBit i = decide (i < n) :=
  Nat.testBit_two_pow_sub_one n i

theorem onesFn_lt (n : Nat) : onesFn n < 2 ^ n := by
  have := Nat.two_pow_pos n
  unfold onesFn
  omega

/-- Bit `i` of a result narrowed to the 64-bit port. -/
theorem getLsbD_ofNat64 (x : Nat) {i : Nat} (h : i < 64) : (BitVec.ofNat 64 x).getLsbD i = x.testBit i := by
  simp only [BitVec.getLsbD, BitVec.toNat_ofNat, Nat.testBit_mod_two_pow, h, decide_true, Bool.true_and]

theorem and_onesFn (v n : Nat) : v &&& onesFn n = v % 2 ^ n := Nat.and_two_pow_sub_one_eq_mod v n

/-- The scan below `n` finds the highest set bit below `n`, or answers -1 when there is none. -/
theorem scanDown_spec (v n : Nat) :
    (scanDown v n = -1 ∧ ∀ i < n, v.testBit i = false) ∨
    (∃ k : Nat, k < n ∧ scanDown v n = k ∧ v.testBit k = true ∧ ∀ i < n, k < i → v.testBit i = false) := by
  induction n with
  | zero => exact .inl ⟨rfl, fun _ h => absurd h (Nat.not_lt_zero _)⟩
  | succ n ih =>
    unfold scanDown
    by_cases hb : v.testBit n = true
    · rw [if_pos ((isBitSetFn_eq_one_iff v n).2 hb)]
      exact .inr ⟨n, by omega, rfl, hb, fun i hi hk => absurd hi (by omega)⟩
    · rw [if_neg (mt (isBitSetFn_eq_one_iff v n).1 hb)]
      have step : ∀ i < n + 1, (i < n → v.testBit i = false) → v.testBit i = false := fun i hi h => by
        rcases Nat.lt_succ_iff_lt_or_eq.1 hi with h' | rfl
        · exact h h'
        · simpa using hb
      rcases ih with ⟨h1, h2⟩ | ⟨k, hk, h1, h2, h3⟩
      · exact .inl ⟨h1, fun i hi => step i hi (h2 i)⟩
      · exact .inr ⟨k, by omega, h1, h2, fun i hi hki => step i hi fun h => h3 i h hki⟩

/-- `HighestSetBit` of a 64-bit value (R74). -/
theorem highestSetBit_spec (v : Nat) (hv : v < 2 ^ 64) :
    (v = 0 ∧ highestSetBit v = -1) ∨
    (∃ k : Nat, k < 64 ∧ highestSetBit v = k ∧ v.testBit k = true ∧ ∀ i, k < i → v.testBit i = false) := by
  have high : ∀ i, 64 ≤ i → v.testBit i = false := fun i hi =>
    Nat.testBit_lt_two_pow (Nat.lt_of_lt_of_le hv (Nat.pow_le_pow_right (by omega) hi))
  rcases scanDown_spec v 64 with ⟨h1, h2⟩ | ⟨k, hk, h1, h2, h3⟩
  · refine .inl ⟨Nat.eq_of_testBit_eq fun i => ?_, h1⟩
    rw [Nat.zero_testBit]
    exact (Nat.lt_or_ge i 64).elim (h2 i) (high i)
  · exact .inr ⟨k, hk, h1, h2, fun i hi => (Nat.lt_or_ge i 64).elim (fun h => h3 i h hi) (high i)⟩

/-- The loop of `Replicate` from an element boundary `pos`: the bits of `q`, and copies of `e` from `pos` up to
`totalWidth`. -/
theorem tile_testBit {e esize totalWidth : Nat} (h0 : 0 < esize) (he : e < 2 ^ esize) (i : Nat) :
    ∀ n q pos, totalWidth ≤ pos + n * esize → pos ≤ totalWidth → esize ∣ totalWidth - pos →
      (tile e esize totalWidth n q pos).testBit i =
        (q.testBit i || (decide (pos ≤ i ∧ i < totalWidth) && e.testBit ((i - pos) % esize))) := by
  intro n
  induction n with
  | zero =>
    intro q pos h1 h2 _
    have : ¬(pos ≤ i ∧ i < totalWidth) := by omega
    simp [tile, this]
  | succ n ih =>
    intro q pos h1 h2 hd
    unfold tile
    split
    · rename_i hlt
      have hle : pos + esize ≤ totalWidth := by
        have := Nat.le_of_dvd (by omega) hd
        omega
      have hd' : esize ∣ totalWidth - (pos + esize) := by
        rw [Nat.sub_add_eq]
        exact Nat.dvd_sub hd (Nat.dvd_refl _)
      rw [ih _ _ (by rw [Nat.add_mul, Nat.one_mul] at h1; omega) hle hd', Nat.testBit_or, Nat.testBit_shiftLeft, Bool.or_assoc]
      congr 1
      by_cases hp : pos ≤ i
      · by_cases hin : i < pos + esize
        · have h3 : ¬(pos + esize ≤ i ∧ i < totalWidth) := by omega
          have h4 : pos ≤ i ∧ i < totalWidth := by omega
          rw [decide_eq_false h3, decide_eq_true h4, Nat.mod_eq_of_lt (show i - pos < esize by omega)]
          simp [hp]
        · have h3 : e.testBit (i - pos) = false :=
            Nat.testBit_lt_two_pow (Nat.lt_of_lt_of_le he (Nat.pow_le_pow_right (by omega) (by omega)))
          have h4 : (i - pos) % esize = (i - (pos + esize)) % esize := by
            rw [show i - pos = (i - (pos + esize)) + esize by omega, Nat.add_mod_right]
          have h5 : (pos + esize ≤ i ∧ i < totalWidth) ↔ (pos ≤ i ∧ i < totalWidth) := by omega
          simp [h3, h4, h5]
      · have h3 : ¬(pos + esize ≤ i ∧ i < totalWidth) := by omega
        simp [hp, h3]
    · rename_i hlt
      have : ¬(pos ≤ i ∧ i < totalWidth) := by omega
      simp [this]

/-- `Replicate` inside its domain: bit `i` is bit `i mod esize` of the value below `totalWidth`, 0 above (R76). -/
theorem replicateFn_testBit {v esize totalWidth : Nat} (h : replicateDomain totalWidth esize = true) (i : Nat) :
    (replicateFn v esize totalWidth).testBit i = (decide (i < totalWidth) && v.testBit (i % esize)) := by
  simp only [replicateDomain, Bool.and_eq_true, decide_eq_true_eq, beq_iff_eq] at h
  obtain ⟨⟨⟨h1, h2⟩, h3⟩, h4⟩ := h
  have he : v &&& onesFn esize < 2 ^ esize := by
    rw [and_onesFn]
    exact Nat.mod_lt _ (Nat.two_pow_pos _)
  have hfuel : 64 * 1 ≤ 64 * esize := Nat.mul_le_mul_left 64 h1
  rw [replicateFn, tile_testBit (by omega) he i 64 0 0 (by omega) (by omega) (by simpa using Nat.dvd_of_mod_eq_zero h4)]
  simp [Nat.mod_lt i (show 0 < esize by omega)]

/-- `Replicate` fits its width (R76). -/
theorem replicateFn_lt {v esize totalWidth : Nat} (h : replicateDomain totalWidth esize = true) :
    replicateFn v esize totalWidth < 2 ^ totalWidth := by
  refine Nat.lt_pow_two_of_testBit _ fun i hi => ?_
  rw [replicateFn_testBit h]
  simp [show ¬i < totalWidth by omega]

/-- `RotateRight` inside its domain: bit `j` is bit `(j + shiftCount) mod width` of the value below `width`, 0 above (R79). -/
theorem rotateRightFn_testBit {v shiftCount width : Nat} (h : shiftCount < width) (j : Nat) :
    (rotateRightFn v shiftCount width).testBit j = (decide (j < width) && v.testBit ((j + shiftCount) % width)) := by
  simp only [rotateRightFn, Nat.testBit_and, Nat.testBit_or, Nat.testBit_shiftLeft, Nat.testBit_shiftRight, onesFn_testBit]
  by_cases hj : j < width
  · by_cases hs : j + shiftCount < width
    · rw [Nat.mod_eq_of_lt hs, Nat.add_comm shiftCount j]
      simp [hj, hs, show ¬width - shiftCount ≤ j by omega]
    · have hm : (j + shiftCount) % width = j - (width - shiftCount) := by
        rw [Nat.mod_eq_sub_mod (by omega), Nat.mod_eq_of_lt (by omega)]
        omega
      rw [hm]
      simp [hj, show ¬shiftCount + j < width by omega, show width - shiftCount ≤ j by omega,
        show j - (width - shiftCount) < width by omega]
  · simp [hj]

/-- `RotateRight` fits its width (R79). -/
theorem rotateRightFn_lt {v shiftCount width : Nat} (h : shiftCount < width) :
    rotateRightFn v shiftCount width < 2 ^ width := by
  refine Nat.lt_pow_two_of_testBit _ fun i hi => ?_
  rw [rotateRightFn_testBit h]
  simp [show ¬i < width by omega]

end Sys2Proof.Machine
end

