-- ==== Sys2Proof/Laws/Dbm.lean ====
section
/-! SUPPORT. What `DecodeBitMasks` can answer: the element size for every `N : imms`, and the bits of the tiled element. -/

namespace Sys2Proof.Machine

/-- The element length with `N = 1` (R92, first row). -/
theorem elementLength_one (imms : Field6) : elementLength 1 imms = 6 := by
  revert imms
  decide

/-- The element length with `N = 0`, by ranges of `imms` (R92, the other rows). -/
theorem elementLength_zero (imms : Field6) :
    elementLength 0 imms =
      if imms.toNat < 32 then 5 else if imms.toNat < 48 then 4 else if imms.toNat < 56 then 3
      else if imms.toNat < 60 then 2 else if imms.toNat < 62 then 1 else if imms.toNat = 62 then 0 else -1 := by
  revert imms
  decide

/-- `length` lies in -1..6 (R29). -/
theorem elementLength_range (N : Bit) (imms : Field6) : -1 ≤ elementLength N imms ∧ elementLength N imms ≤ 6 := by
  revert N imms
  decide

/-- An element of 2, 4, 8, 16, 32 or 64 bits tiles 64 bits (R100: inside the domain of R78). -/
theorem replicateDomain_64 {length : Nat} (h : length ≤ 6) : replicateDomain 64 (2 ^ length) = true := by
  interval_cases length <;> decide

/-- Bit `i` of the tiled element: set exactly when `(i + r) mod esize <= s` (R106), with `esize = 2 ^ length`. -/
theorem expandElement_testBit {length : Nat} (h6 : length ≤ 6) (imms immr : Field6) (i : Nat) :
    (expandElement length imms immr).testBit i =
      (decide (i < 64) && decide ((i % 2 ^ length + immr.toNat % 2 ^ length) % 2 ^ length ≤ imms.toNat % 2 ^ length)) := by
  have hr : immr.toNat % 2 ^ length < 2 ^ length := Nat.mod_lt _ (Nat.two_pow_pos _)
  have hi : i % 2 ^ length < 2 ^ length := Nat.mod_lt _ (Nat.two_pow_pos _)
  simp only [expandElement, Nat.one_shiftLeft, and_onesFn]
  rw [replicateFn_testBit (replicateDomain_64 h6), rotateRightFn_testBit hr, onesFn_testBit]
  simp [hi, Nat.lt_succ_iff]

/-- The tiled element fits 64 bits (R100). -/
theorem expandElement_lt {length : Nat} (h6 : length ≤ 6) (imms immr : Field6) :
    expandElement length imms immr < 2 ^ 64 := by
  refine Nat.lt_pow_two_of_testBit _ fun i hi => ?_
  rw [expandElement_testBit h6]
  simp [show ¬i < 64 by omega]

/-- Everything `DecodeBitMasks` can answer: cause (a), cause (b), or the tiled element (R101). -/
theorem decodeBitMasks_cases (N : Bit) (imms immr : Field6) (L : Bool) :
    (elementLength N imms < 1 ∧ decodeBitMasks N imms immr L = .error .noElementSize) ∨
    (∃ length : Nat, 1 ≤ length ∧ length ≤ 6 ∧ elementLength N imms = length ∧
      ((L = true ∧ imms.toNat % 2 ^ length = 2 ^ length - 1 ∧
          decodeBitMasks N imms immr L = .error .allOnesRejected) ∨
       (¬(L = true ∧ imms.toNat % 2 ^ length = 2 ^ length - 1) ∧
          decodeBitMasks N imms immr L = .ok (BitVec.ofNat 64 (expandElement length imms immr))))) := by
  have hrange := elementLength_range N imms
  by_cases h : elementLength N imms < 1
  · exact .inl ⟨h, by simp [decodeBitMasks, h]⟩
  · obtain ⟨n, hn⟩ : ∃ n : Nat, elementLength N imms = n := ⟨(elementLength N imms).toNat, by omega⟩
    refine .inr ⟨n, by omega, by omega, hn, ?_⟩
    have hlt : ¬((n : Int) < 1) := by omega
    by_cases hb : L = true ∧ imms.toNat % 2 ^ n = 2 ^ n - 1
    · refine .inl ⟨hb.1, hb.2, ?_⟩
      simp [decodeBitMasks, hn, hlt, hb.1, hb.2, onesFn]
    · refine .inr ⟨hb, ?_⟩
      have hb' : (L && (imms.toNat &&& onesFn n) == onesFn n) = false := by
        rw [and_onesFn, onesFn]
        cases L
        · rfl
        · simpa using hb
      simp [decodeBitMasks, hn, hlt, hb']

end Sys2Proof.Machine
end

