-- ==== Sys2Proof/Laws/Decode.lean ====
section
/-! SUPPORT. Everything the decoder can answer. -/

namespace Sys2Proof

/-- A word that fits its format is read by its fields. -/
theorem decode_of_fits {r : Request} (h : r.word.toNat < 2 ^ r.format.requestBits) :
    decode r = .ok (decodeFields r.format r.word) := if_pos h

/-- A word with a bit above its format is refused by name. -/
theorem decode_of_wide {r : Request} (h : ¬r.word.toNat < 2 ^ r.format.requestBits) :
    decode r = .error .wordTooWide := if_neg h

/-- The decoder accepts exactly the words that fit, and reads them by their fields. -/
theorem decode_eq_ok_iff {r : Request} {i : Instr} :
    decode r = .ok i ↔ r.word.toNat < 2 ^ r.format.requestBits ∧ decodeFields r.format r.word = i := by
  by_cases h : r.word.toNat < 2 ^ r.format.requestBits
  · simp [decode_of_fits h, h]
  · simp [decode_of_wide h, h]

end Sys2Proof
end

