-- ==== Sys2Proof/Laws/Mwp.lean ====
section
/-! SUPPORT. When the predicate is true, for either value of the parameter, as one equivalence. -/

namespace Sys2Proof.Machine

theorem selectedWidth_one : selectedWidth 1 = 64 := rfl
theorem selectedWidth_zero : selectedWidth 0 = 32 := rfl

/-- `MoveWidePreferred` is true exactly in step 3 or step 4, for equal `immN` and `sf` (R112 to R115). -/
theorem moveWidePreferred_eq_true_iff (rhs : MovnRhs) (sf immN : Bit) (imms immr : Field6) :
    moveWidePreferred rhs sf immN imms immr = true ↔
      immN = sf ∧
        ((imms.toNat < 16 ∧ (-(immr.toNat : Int)) % 16 ≤ 15 - imms.toNat) ∨
         (16 ≤ imms.toNat ∧ selectedWidth sf ≤ imms.toNat + 15 ∧
            (immr.toNat : Int) % 16 ≤ movnBound rhs (selectedWidth sf) imms.toNat)) := by
  unfold moveWidePreferred
  by_cases h : immN = sf
  · by_cases h16 : imms.toNat < 16
    · have : ((imms.toNat : Int)) < 16 := by omega
      simp [h, this, h16, show ¬16 ≤ imms.toNat by omega]
    · have h16' : ¬((imms.toNat : Int)) < 16 := by omega
      by_cases hw : selectedWidth sf ≤ imms.toNat + 15
      · simp [h, h16, h16', hw, show (selectedWidth sf : Int) ≤ imms.toNat + 15 by omega, show 16 ≤ imms.toNat by omega]
      · simp [h, h16, h16', hw, show ¬(selectedWidth sf : Int) ≤ imms.toNat + 15 by omega]
  · simp [h]

end Sys2Proof.Machine
end

