-- ==== Sys2Proof/Laws/PerInstr.lean ====
section
/-! SUPPORT. Statements for all operations, made one constructor at a time. -/

namespace Sys2Proof.Laws.Fits

/-- The packed request word has no bit above its format's width (R54, R56, R57). -/
def Statement (i : Instr) : Prop := (encode i).word.toNat < 2 ^ (encode i).format.requestBits

theorem setWidth_toNat_lt {n : Nat} (x : BitVec n) : (x.setWidth 80).toNat < 2 ^ n := by
  rw [BitVec.toNat_setWidth]
  exact Nat.lt_of_le_of_lt (Nat.mod_le _ _) x.isLt

theorem isBitSet (bit : Field6) (value : Word) : Statement (.isBitSet bit value) := setWidth_toNat_lt (bit ++ value)
theorem ones (length : Field7) : Statement (.ones length) := setWidth_toNat_lt length
theorem hsb (value : Word) : Statement (.hsb value) := setWidth_toNat_lt value
theorem replicate (totalWidth esize : Field7) (value : Word) : Statement (.replicate totalWidth esize value) :=
  setWidth_toNat_lt (totalWidth ++ esize ++ value)
theorem ror (width : Field7) (shiftCount : Field6) (value : Word) : Statement (.ror width shiftCount value) :=
  setWidth_toNat_lt (width ++ shiftCount ++ value)
theorem dbmL (N : Bit) (imms immr : Field6) : Statement (.dbmL N imms immr) :=
  setWidth_toNat_lt ((1#1) ++ Machine.packF13 N immr imms)
theorem dbmM (N : Bit) (imms immr : Field6) : Statement (.dbmM N imms immr) :=
  setWidth_toNat_lt ((0#1) ++ Machine.packF13 N immr imms)
theorem mwp (sf immN : Bit) (imms immr : Field6) : Statement (.mwp sf immN imms immr) :=
  setWidth_toNat_lt (sf ++ Machine.packF13 immN immr imms)

end Sys2Proof.Laws.Fits
end

