-- ==== Sys2Proof/Laws/PrimitiveLaws.lean ====
section
/-! SUPPORT. The identities of R82 and the nine laws of R83, of the primitives as functions on integers. Set bits below `n` are
counted by `Nat.count`. -/

namespace Sys2Proof.Machine

/-- `RotateRight(v, 0, width) == v & Ones(width)` (R82). -/
theorem rotateRightFn_zero {v w : Nat} (hw : 0 < w) : rotateRightFn v 0 w = v &&& onesFn w := by
  refine Nat.eq_of_testBit_eq fun i => ?_
  rw [rotateRightFn_testBit hw, Nat.testBit_and, onesFn_testBit, Bool.and_comm]
  by_cases h : i < w <;> simp [h, Nat.mod_eq_of_lt]

/-- `Replicate(v, esize, esize) == v & Ones(esize)` (R82). -/
theorem replicateFn_once {v e : Nat} (h : replicateDomain e e = true) : replicateFn v e e = v &&& onesFn e := by
  refine Nat.eq_of_testBit_eq fun i => ?_
  rw [replicateFn_testBit h, Nat.testBit_and, onesFn_testBit, Bool.and_comm]
  by_cases h : i < e <;> simp [h, Nat.mod_eq_of_lt]

/-- A value whose highest set bit is `k` (R74). -/
theorem highestSetBit_eq_of_top {v k : Nat} (hv : v < 2 ^ 64) (hk : v.testBit k = true)
    (above : ∀ i, k < i → v.testBit i = false) : highestSetBit v = k := by
  rcases highestSetBit_spec v hv with ⟨rfl, _⟩ | ⟨k', _, h2, h3, h4⟩
  · simp at hk
  · rcases Nat.lt_trichotomy k k' with h | rfl | h
    · simp [above k' h] at h3
    · exact h2
    · simp [h4 k h] at hk

/-- `HSB(Ones(n)) = n - 1`, so `HSB(Ones(0)) = -1` (R83). -/
theorem highestSetBit_onesFn {n : Nat} (h : n ≤ 64) : highestSetBit (onesFn n) = (n : Int) - 1 := by
  rcases n with _ | n
  · rfl
  · have hlt : onesFn (n + 1) < 2 ^ 64 := Nat.lt_of_lt_of_le (onesFn_lt _) (Nat.pow_le_pow_right (by omega) h)
    rw [highestSetBit_eq_of_top (k := n) hlt (by simp) fun i hi => by simp; omega]
    omega

/-- `HSB(1 << k) = k` (R83). -/
theorem highestSetBit_one_shiftLeft {k : Nat} (h : k < 64) : highestSetBit (1 <<< k) = k := by
  rw [Nat.one_shiftLeft]
  refine highestSetBit_eq_of_top (Nat.pow_lt_pow_right (by omega) h) Nat.testBit_two_pow_self fun i hi => ?_
  exact Nat.testBit_two_pow_of_ne (by omega)

/-- `ISBITSET(v, HSB(v)) = 1` and `ISBITSET(v, i) = 0` above it, for `v != 0` (R83). -/
theorem isBitSetFn_highestSetBit {v : Nat} (hv : v < 2 ^ 64) (h0 : v ≠ 0) :
    isBitSetFn v (highestSetBit v).toNat = 1 ∧ ∀ i : Nat, highestSetBit v < i → isBitSetFn v i = 0 := by
  rcases highestSetBit_spec v hv with ⟨h, _⟩ | ⟨k, _, h2, h3, h4⟩
  · exact absurd h h0
  · rw [h2]
    refine ⟨(isBitSetFn_eq_one_iff v k).2 h3, fun i hi => ?_⟩
    rw [isBitSetFn_eq_toNat, h4 i (by omega)]
    rfl

/-- `Ones(a) & Ones(b) = Ones(min(a, b))` (R83). -/
theorem onesFn_and_onesFn (a b : Nat) : onesFn a &&& onesFn b = onesFn (min a b) := by
  refine Nat.eq_of_testBit_eq fun i => ?_
  simp

/-- `ROR(ROR(v, a, w), b, w) = ROR(v, (a + b) mod w, w)` (R83). -/
theorem rotateRightFn_rotateRightFn {v a b w : Nat} (ha : a < w) (hb : b < w) :
    rotateRightFn (rotateRightFn v a w) b w = rotateRightFn v ((a + b) % w) w := by
  have hw : 0 < w := by omega
  refine Nat.eq_of_testBit_eq fun i => ?_
  rw [rotateRightFn_testBit hb, rotateRightFn_testBit ha, rotateRightFn_testBit (Nat.mod_lt _ hw),
    Nat.mod_add_mod, Nat.add_mod_mod, show i + b + a = i + (a + b) by omega]
  simp [Nat.mod_lt _ hw]

/-- `ROR(Ones(w), k, w) = Ones(w)` (R83). -/
theorem rotateRightFn_onesFn {k w : Nat} (hk : k < w) : rotateRightFn (onesFn w) k w = onesFn w := by
  refine Nat.eq_of_testBit_eq fun i => ?_
  rw [rotateRightFn_testBit hk, onesFn_testBit, onesFn_testBit]
  simp [Nat.mod_lt _ (show 0 < w by omega)]

/-- `REPLICATE(v, e, 64) = REPLICATE(REPLICATE(v, e, 2e), 2e, 64)` (R83). -/
theorem replicateFn_double {v e : Nat} (h : replicateDomain 64 e = true) (h1 : replicateDomain (2 * e) e = true)
    (h2 : replicateDomain 64 (2 * e) = true) :
    replicateFn (replicateFn v e (2 * e)) (2 * e) 64 = replicateFn v e 64 := by
  have he : 0 < 2 * e := by simp [replicateDomain] at h; omega
  refine Nat.eq_of_testBit_eq fun i => ?_
  rw [replicateFn_testBit h2, replicateFn_testBit h1, replicateFn_testBit h, Nat.mod_mul_left_mod]
  simp [Nat.mod_lt i he]

/-- Set bits of a value in a field with nothing above it, counted up to any greater width. -/
theorem count_testBit_of_lt {x w n : Nat} (hx : x < 2 ^ w) (h : w ≤ n) :
    Nat.count (fun i => x.testBit i = true) n = Nat.count (fun i => x.testBit i = true) w := by
  obtain ⟨d, rfl⟩ := Nat.exists_eq_add_of_le h
  rw [Nat.count_add]
  have : ∀ k, ¬x.testBit (w + k) = true := fun k => by
    rw [Nat.testBit_lt_two_pow (Nat.lt_of_lt_of_le hx (Nat.pow_le_pow_right (by omega) (Nat.le_add_right w k)))]
    simp
  simp [this]

/-- Two predicates that agree below `n` have the same count there. -/
theorem count_eq_of_agree {p q : Nat → Prop} [DecidablePred p] [DecidablePred q] {n : Nat} (h : ∀ i < n, (p i ↔ q i)) :
    Nat.count p n = Nat.count q n := by
  rw [Nat.count_eq_card_filter_range, Nat.count_eq_card_filter_range,
    Finset.filter_congr fun i hi => h i (Finset.mem_range.1 hi)]

/-- Set bits below `c * e` of a pattern of period `e`. -/
theorem count_periodic {p : Nat → Prop} [DecidablePred p] {e : Nat} (hp : ∀ i, p (e + i) ↔ p i) (c : Nat) :
    Nat.count p (c * e) = c * Nat.count p e := by
  induction c with
  | zero => simp
  | succ c ih =>
    rw [Nat.succ_mul, Nat.add_comm (c * e), Nat.count_add, Nat.succ_mul, ← ih, Nat.add_comm]
    congr 1
    exact count_eq_of_agree fun i _ => hp i

/-- Set bits of a pattern of period `w` in any window of `w` bits. -/
theorem count_window {p : Nat → Prop} [DecidablePred p] {w : Nat} (hp : ∀ i, p (w + i) ↔ p i) (k : Nat) :
    Nat.count (fun i => p (k + i)) w = Nat.count p w := by
  have h1 := Nat.count_add p k w
  have h2 := Nat.count_add p w k
  rw [count_eq_of_agree fun i _ => hp i, Nat.add_comm w k] at h2
  omega

/-- `popcount(ROR(v, k, w)) = popcount(v & Ones(w))` (R83), over the field; nothing stands above it. -/
theorem count_rotateRightFn {v k w : Nat} (hk : k < w) :
    Nat.count (fun i => (rotateRightFn v k w).testBit i = true) w = Nat.count (fun i => (v &&& onesFn w).testBit i = true) w := by
  rw [count_eq_of_agree (q := fun i => v.testBit ((k + i) % w) = true) fun i hi => by
      rw [rotateRightFn_testBit hk, Nat.add_comm i k]
      simp [hi],
    count_window (p := fun i => v.testBit (i % w) = true) fun i => by simp]
  exact count_eq_of_agree fun i hi => by simp [hi, Nat.mod_eq_of_lt]

/-- `popcount(REPLICATE(v, e, t)) = (t / e) * popcount(v & Ones(e))` (R83), over the filled width; nothing stands above it. -/
theorem count_replicateFn {v e t : Nat} (h : replicateDomain t e = true) :
    Nat.count (fun i => (replicateFn v e t).testBit i = true) t =
      t / e * Nat.count (fun i => (v &&& onesFn e).testBit i = true) e := by
  have hd : t / e * e = t := by
    refine Nat.div_mul_cancel (Nat.dvd_of_mod_eq_zero ?_)
    simp only [replicateDomain, Bool.and_eq_true, beq_iff_eq] at h
    exact h.2
  have hp := count_periodic (p := fun i => v.testBit (i % e) = true) (e := e) (fun i => by simp) (t / e)
  rw [hd] at hp
  rw [count_eq_of_agree (q := fun i => v.testBit (i % e) = true) fun i hi => by rw [replicateFn_testBit h]; simp [hi], hp]
  congr 1
  exact count_eq_of_agree fun i hi => by simp [hi, Nat.mod_eq_of_lt]

end Sys2Proof.Machine
end

