-- ==== Sys2Proof/Laws/State.lean ====
section
/-! SUPPORT. What each operation over the state does to each field, and what taking the next request can answer. -/

namespace Sys2Proof.Machine

@[simp] theorem State.reset_requests : State.reset.requests = [] := rfl
@[simp] theorem State.reset_outputs : State.reset.outputs = none := rfl

@[simp] theorem State.respond_requests (s : State) (r : Response) : (s.respond r).requests = s.requests := rfl
@[simp] theorem State.respond_outputs (s : State) (r : Response) : (s.respond r).outputs = some r := rfl
@[simp] theorem State.respond_respond (s : State) (q r : Response) : (s.respond q).respond r = s.respond r := rfl

@[simp] theorem State.signalUndefined_requests (s : State) : s.signalUndefined.requests = s.requests := rfl
@[simp] theorem State.signalUndefined_outputs (s : State) : s.signalUndefined.outputs = some .undefined := rfl

@[simp] theorem State.present_requests (s : State) (r : Request) : (s.present r).requests = r :: s.requests.tail := rfl
@[simp] theorem State.present_outputs (s : State) (r : Request) : (s.present r).outputs = s.outputs := rfl

@[simp] theorem deliver_ok (w : Word) (s : State) : deliver (.ok w) s = .next (s.respond (.wmask w)) := rfl
@[simp] theorem deliver_error (c : UndefCause) (s : State) : deliver (.error c) s = .next s.signalUndefined := rfl

/-- Everything `fetch` can answer. -/
theorem fetch_cases (s : State) :
    (s.requests = [] ∧ fetch s = .fault .inputsUndriven) ∨
    (∃ r rest, s.requests = r :: rest ∧ decode r = .error .wordTooWide ∧ fetch s = .refused .requestWordTooWide) ∨
    (∃ r rest i, s.requests = r :: rest ∧ decode r = .ok i ∧ fetch s = .next (i, { s with requests := rest })) := by
  unfold fetch
  rcases hs : s.requests with _ | ⟨r, rest⟩
  · exact .inl ⟨rfl, rfl⟩
  · rcases hd : decode r with e | i
    · cases e
      exact .inr (.inl ⟨r, rest, rfl, hd, by simp [hd]⟩)
    · exact .inr (.inr ⟨r, rest, i, rfl, hd, by simp [hd]⟩)

end Sys2Proof.Machine
end

