-- ==== Sys2Proof/Tests/Slice0.lean ====
section
/-! SUPPORT. Tests with expected values from spec/95_test_vectors.md (the vector is named) and from request words written out
from 30_encoding.md; and, for each statement with hypotheses, a state and operands that meet them. -/

namespace Sys2Proof.Tests

open Sys2Proof.Machine

/-- The state in which the caller presents one request. -/
def one (f : Format) (w : Nat) : State := ⟨[⟨f, BitVec.ofNat 80 w⟩], none⟩

/-- The state after an evaluation with result `r`. -/
def done (r : Response) : Host.Outcome State Fault Refusal := .next ⟨[], some r⟩

/-! ### WellFormed refuses an ill-formed term for each check (95, section 4, "Refused by the model") -/

theorem test_wf_ones_65 : (Instr.ones 65).wellFormed = false := by decide
theorem test_wf_ones_64 : (Instr.ones 64).wellFormed = true := by decide
theorem test_wf_replicate_esize_0 : (Instr.replicate 64 0 5).wellFormed = false := by decide
theorem test_wf_replicate_not_multiple : (Instr.replicate 64 3 5).wellFormed = false := by decide
theorem test_wf_replicate_esize_above_total : (Instr.replicate 8 16 5).wellFormed = false := by decide
theorem test_wf_replicate_total_72 : (Instr.replicate 72 8 5).wellFormed = false := by decide
theorem test_wf_ror_count_is_width : (Instr.ror 8 8 5).wellFormed = false := by decide
theorem test_wf_ror_width_0 : (Instr.ror 0 0 5).wellFormed = false := by decide
theorem test_wf_ror_width_65 : (Instr.ror 65 0 5).wellFormed = false := by decide
theorem test_wf_nearest_accepted :
    (Instr.replicate 64 1 5).wellFormed && (Instr.replicate 8 8 5).wellFormed && (Instr.ror 8 7 5).wellFormed &&
      (Instr.ror 1 0 5).wellFormed && (Instr.ror 64 0 5).wellFormed = true := by decide

/-! ### Decoding: one word a constructor, written out from its encoding -/

/-- P-BIT: bits 69:64 `bit` = 000100, bits 63:0 `value` = 0x50. -/
theorem test_decode_isBitSet : decode ⟨.pBit, 0x040000000000000050⟩ = .ok (.isBitSet 4 0x50) := by rfl
/-- P-LEN: bits 6:0 `length` = 0011101. -/
theorem test_decode_ones : decode ⟨.pLen, 0b0011101⟩ = .ok (.ones 29) := by rfl
/-- P-VAL: bits 63:0 `value`. -/
theorem test_decode_hsb : decode ⟨.pVal, 0x43⟩ = .ok (.hsb 0x43) := by rfl
/-- P-REP: program 2, line 8 (`totalWidth` = 1000000, `esize` = 0001000). -/
theorem test_decode_replicate : decode ⟨.pRep, 0x200800000000000000C3⟩ = .ok (.replicate 64 8 0xC3) := by rfl
/-- P-ROR: program 2, line 7 (`width` = 0001000, `shiftCount` = 000010). -/
theorem test_decode_ror : decode ⟨.pRor, 0x0202000000000000000F⟩ = .ok (.ror 8 2 0xF) := by rfl
/-- F-DBM with bit 13 set: `1 0 000010 110011` (D31). -/
theorem test_decode_dbmL : decode ⟨.fDbm, 0b10000010110011⟩ = .ok (.dbmL 0 51 2) := by rfl
/-- F-DBM with bit 13 clear: `0 1 100101 111111` (D62). -/
theorem test_decode_dbmM : decode ⟨.fDbm, 0b01100101111111⟩ = .ok (.dbmM 1 63 37) := by rfl
/-- F-MWP: `1 1 111000 000111` (M12); the same word on unit DBM is another operation. -/
theorem test_decode_mwp : decode ⟨.fMwp, 0b11111000000111⟩ = .ok (.mwp 1 1 7 56) := by rfl
theorem test_decode_wide_word_refused : decode ⟨.fMwp, 0x4000⟩ = .error .wordTooWide := by rfl
theorem test_encode_dbmL : encode (.dbmL 0 51 2) = ⟨.fDbm, 0x20B3⟩ := by decide
theorem test_encode_mwp : encode (.mwp 1 1 7 55) = ⟨.fMwp, 0x3DC7⟩ := by decide
theorem test_table_word_dbmL : decodeTableWord 16 0x20B3 = some (.dbmL 0 51 2) := by rfl
theorem test_table_word_dbmM : decodeTableWord 16 0x103F = some (.dbmM 1 63 0) := by rfl
/-- R31, log 4: a word that leaves lines of a format undriven names no operation and presents nothing. -/
theorem test_table_word_undriven_lines :
    decodeTableWord 13 0x103F = none ∧ decodeTableWord 6 0x03 = none ∧ decodeTableWord 65 0 = none ∧
      decodeTableWord 76 0 = none ∧ State.reset.withFetchWord 13 0x103F = State.reset := by decide
theorem test_fetch_word_runs : step (State.reset.withFetchWord 16 0x20B3) = done (.wmask 0xC3C3C3C3C3C3C3C3) := by rfl

/-! ### Each operation, by a step on a one-request state -/

/-- PR01. -/
theorem test_isBitSet_set : step (one .pBit 0x040000000000000050) = done (.bit 1) := by rfl
/-- PR04: the top bit. -/
theorem test_isBitSet_top : exec (.isBitSet 63 0x8000000000000000) State.reset = done (.bit 1) := by rfl
/-- PR16. -/
theorem test_ones_29 : step (one .pLen 29) = done (.word 0x1FFFFFFF) := by rfl
/-- PR19: the full width. -/
theorem test_ones_64 : exec (.ones 64) State.reset = done (.word 0xFFFFFFFFFFFFFFFF) := by rfl
/-- PR20: -1 is 0b1111111 (R74). -/
theorem test_hsb_zero : exec (.hsb 0) State.reset = done (.index 0b1111111) := by rfl
/-- PR28. -/
theorem test_hsb_top : exec (.hsb 0x8000000000000000) State.reset = done (.index 63) := by rfl
/-- PR36: the bit above the element is masked first (C8). -/
theorem test_replicate_masks : exec (.replicate 16 8 0x1FF) State.reset = done (.word 0xFFFF) := by rfl
/-- PR43: three copies, bits above `totalWidth` clear. -/
theorem test_replicate_three : exec (.replicate 12 4 5) State.reset = done (.word 0x555) := by rfl
/-- PR52: the bit above the field is masked first (C7). -/
theorem test_ror_masks : exec (.ror 8 4 0x100) State.reset = done (.word 0) := by rfl
/-- PR61. -/
theorem test_ror_64 : exec (.ror 64 16 0x123456789ABCDEF0) State.reset = done (.word 0xDEF0123456789ABC) := by rfl
/-- D16: the run wraps round the top of the element. -/
theorem test_dbmL_wrap : step (one .fDbm 0x2107) = done (.wmask 0xF000000FF000000F) := by rfl
/-- D60: cause (b). -/
theorem test_dbmL_all_ones : step (one .fDbm 0x303F) = done .undefined := by rfl
/-- D62: `Ones(64)` and a rotation in 64 bits. -/
theorem test_dbmM_all_ones : step (one .fDbm 0x197F) = done (.wmask 0xFFFFFFFFFFFFFFFF) := by rfl
/-- D04: cause (a), `length` 0. -/
theorem test_dbmM_no_size : step (one .fDbm 0x017E) = done .undefined := by rfl
/-- M17: step 3, one over the bound, floored `mod`. -/
theorem test_mwp_movz : step (one .fMwp 0x3041) = done (.preferred false) := by rfl
/-- M43: step 4 with a negative right-hand side. -/
theorem test_mwp_movn_negative : step (one .fMwp 0x0011) = done (.preferred false) := by rfl
/-- M43 in the column `symmetric`. -/
theorem test_mwp_symmetric : moveWidePreferred .symmetric 0 0 17 0 = true := by decide
/-- Program 3, lines 1 and 2: an Undefined outcome leaves nothing behind. -/
theorem test_undefined_then_value :
    Host.Core.run Sys2Proof.core 2 (⟨[⟨.fDbm, 0x303F⟩, ⟨.fDbm, 0x103F⟩], none⟩ : State) =
      (done (.wmask 0xFFFFFFFFFFFFFFFF) : Host.Outcome State Fault Refusal) := by rfl

/-! ### Witnesses: what meets the hypotheses of each statement -/

theorem witness_StepFaultsExactlyWhenInputsUndriven :
    State.reset.requests = [] ∧ step State.reset = .fault .inputsUndriven := ⟨rfl, rfl⟩
theorem witness_StepRunsTheDecodedRequest :
    (one .fDbm 0x20B3).requests = [⟨.fDbm, 0x20B3⟩] ∧ decode ⟨.fDbm, 0x20B3⟩ = .ok (.dbmL 0 51 2) := ⟨rfl, rfl⟩
theorem witness_StepRefuses_wide : step (one .pLen 128) = .refused .requestWordTooWide := by rfl
theorem witness_StepRefuses_ones : step (one .pLen 65) = .refused .onesLengthOutsideDomain := by rfl
theorem witness_StepRefuses_replicate : step (one .pRep 0) = .refused .replicateOutsideDomain := by rfl
theorem witness_StepRefuses_ror : step (one .pRor 0) = .refused .rorOutsideDomain := by rfl
theorem witness_StepRefuses_none : step (one .pLen 64) = done (.word 0xFFFFFFFFFFFFFFFF) := by rfl
theorem witness_EncodeOfDecodeIsTheRequest : decode ⟨.pLen, 0x7F⟩ = .ok (.ones 127) := by rfl
theorem witness_OnesReturnsTheLowBitsSet : (0 : Field7).toNat ≤ 64 ∧ (64 : Field7).toNat ≤ 64 := by decide
theorem witness_OnesAtAndBeyondTheEndOfItsDomain : 64 < (65 : Field7).toNat := by decide
theorem witness_replicate_domain : Claims.replicateDomain (64 : Field7).toNat (1 : Field7).toNat ∧
    Claims.replicateDomain (64 : Field7).toNat (64 : Field7).toNat ∧
    Claims.replicateDomain (1 : Field7).toNat (1 : Field7).toNat := by decide
theorem witness_replicate_outside : ¬Claims.replicateDomain (64 : Field7).toNat (0 : Field7).toNat ∧
    ¬Claims.replicateDomain (64 : Field7).toNat (3 : Field7).toNat ∧
    ¬Claims.replicateDomain (8 : Field7).toNat (16 : Field7).toNat ∧
    ¬Claims.replicateDomain (72 : Field7).toNat (8 : Field7).toNat := by decide
theorem witness_ror_domain : Claims.rorDomain (64 : Field7).toNat (63 : Field6).toNat ∧
    Claims.rorDomain (1 : Field7).toNat (0 : Field6).toNat := by decide
theorem witness_ror_outside : ¬Claims.rorDomain (8 : Field7).toNat (8 : Field6).toNat ∧
    ¬Claims.rorDomain (0 : Field7).toNat (0 : Field6).toNat ∧
    ¬Claims.rorDomain (65 : Field7).toNat (0 : Field6).toNat := by decide
theorem witness_RotateByZeroAndReplicateOnceMaskTheValue : 1 ≤ (64 : Field7).toNat ∧ (64 : Field7).toNat ≤ 64 := by decide
theorem witness_HsbAgreesWithOnesAndIsBitSet : (64 : Field7).toNat ≤ 64 ∧ 63 < 64 ∧ (1 : Word) ≠ 0 ∧
    (0 : Field6).toNat < (63 : Field6).toNat := by decide
theorem witness_RotationsComposeModuloTheWidth :
    (64 : Field7).toNat ≤ 64 ∧ (63 : Field6).toNat < (64 : Field7).toNat := by decide
theorem witness_TilingFromTwoCopiesIsTheSame :
    (32 : Field7) ∈ ([1, 2, 4, 8, 16, 32] : List Field7) ∧ (64 : Field7).toNat ≤ 64 ∧ (0 : Field7).toNat ≤ 64 := by decide
theorem witness_NoElementSizeIsUndefined : elementLength 0 62 < 1 ∧ elementLength 0 63 < 1 := by decide
theorem witness_not_causeA : ¬Claims.causeA 0 61 ∧ ¬Claims.causeA 0 0 ∧ ¬Claims.causeA 1 63 ∧ ¬Claims.causeA 1 62 := by decide
theorem witness_causeB_zero : ∀ imms ∈ ([61, 59, 55, 47, 31] : List Field6), Claims.causeB 0 imms := by
  simp [Claims.causeB]
theorem witness_causeB_one : Claims.causeB 1 63 := by decide
theorem witness_not_causeB : ¬Claims.causeB 0 60 ∧ ¬Claims.causeB 1 62 := by simp [Claims.causeB]
theorem witness_DbmMAgreesWhereDbmLHasAValue :
    exec (.dbmL 0 48 9) State.reset = done (.wmask 0x8080808080808080) := by rfl
theorem witness_UpperBitsOfImmrAreIgnored : Claims.rotation 0 60 0 = Claims.rotation 0 60 62 := by decide
theorem witness_DbmLValueDeterminesTheFields :
    exec (.dbmL 0 60 0) State.reset = done (.wmask 0x5555555555555555) ∧
      exec (.dbmL 0 60 2) State.reset = done (.wmask 0x5555555555555555) := ⟨rfl, rfl⟩
theorem witness_WmaskIsNeverZero : exec (.dbmM 0 61 1) State.reset = done (.wmask 0xFFFFFFFFFFFFFFFF) ∧
    exec (.dbmL 1 0 0) State.reset = done (.wmask 1) := ⟨rfl, rfl⟩
theorem witness_WmaskIsPeriodicInTheElement : exec (.dbmM 0 7 4) State.reset = done (.wmask 0xF000000FF000000F) := by rfl
theorem witness_MoveWidePreferredStepByStep_step2 : (0 : Bit) ≠ 1 := by decide
theorem witness_MoveWidePreferredStepByStep_step3 : (15 : Field6).toNat < 16 := by decide
theorem witness_MoveWidePreferredStepByStep_step4 : 16 ≤ (17 : Field6).toNat ∧ Claims.width 0 - 15 ≤ (17 : Field6).toNat ∧
    16 ≤ (49 : Field6).toNat ∧ Claims.width 1 - 15 ≤ (49 : Field6).toNat := by decide
theorem witness_MoveWidePreferredStepByStep_step5 : 16 ≤ (16 : Field6).toNat ∧ (16 : Field6).toNat < Claims.width 0 - 15 ∧
    16 ≤ (48 : Field6).toNat ∧ (48 : Field6).toNat < Claims.width 1 - 15 := by decide
theorem witness_MovzTestMeansOneHalfword : (15 : Field6).toNat < 16 := by decide
theorem witness_EveryOperationInItsDomainCompletes :
    (Instr.ones 64).wellFormed = true ∧ (Instr.ones 65).wellFormed = false := by decide
theorem witness_UndefinedComesFromTheDecoderAlone :
    exec (.dbmL 0 62 0) State.reset = done .undefined ∧ exec (.dbmL 1 63 0) State.reset = done .undefined ∧
      exec (.dbmM 0 63 0) State.reset = done .undefined := ⟨rfl, rfl, rfl⟩
theorem witness_exec_next : exec (.mwp 0 0 63 63) State.reset = done (.preferred true) := by rfl
theorem witness_exec_refused : exec (.ror 8 8 1) State.reset = .refused .rorOutsideDomain := by rfl
theorem witness_AnySequenceGivesEachRequestItsOwnResult :
    List.all [⟨.fDbm, 0x303F⟩, ⟨.pLen, 64⟩] Request.safe = true ∧ Request.safe ⟨.fMwp, 0x3E07⟩ = true := by decide
theorem witness_StepKeepsTheOutputsLegal :
    (one .fDbm 0x2000).outputsLegal ∧ step (one .fDbm 0x2000) = done (.wmask 0x0000000100000001) :=
  ⟨fun _ h => (nomatch h), rfl⟩
theorem witness_PrimPortsCarryTheResultAlone : (64 : Field7).toNat ≤ 64 ∧
    Claims.replicateDomain (64 : Field7).toNat (64 : Field7).toNat ∧ Claims.rorDomain (64 : Field7).toNat (63 : Field6).toNat := by
  decide
theorem witness_DbmPortsCarryTheOutcomeAlone : Claims.causeA 0 62 ∧ Claims.causeB 1 63 ∧ ¬Claims.causeA 1 63 ∧
    ¬Claims.causeA 0 60 ∧ ¬Claims.causeB 0 60 := by simp [Claims.causeA, Claims.causeB]
theorem witness_UndefIsBit64OfTheDecoderResponse : (Response.wmask 5 = .wmask 5 ∨ Response.wmask 5 = .undefined) ∧
    (Response.undefined = .wmask 5 ∨ Response.undefined = .undefined) := by decide
theorem witness_SafeRequestsAreAllAnswered : (one .pRep 0x200800000000000000C3).safe = true ∧
    (one .pRep 0x200800000000000000C3).requests ≠ [] := by decide

/-- The named ports after D31, M12 and PR20: a port of another unit has no value (R28, R31). -/
theorem test_ports :
    portWmask ⟨[], some (.wmask 5)⟩ = some 5 ∧ portPreferred ⟨[], some (.wmask 5)⟩ = none ∧
      portIndex ⟨[], some (.index 0b1111111)⟩ = some (-1) ∧ portQ ⟨[], some (.bit 1)⟩ = some 1 ∧
      portUndef ⟨[], some .undefined⟩ = some 1 ∧ portWmask ⟨[], some .undefined⟩ = none := by decide

end Sys2Proof.Tests
end

section
/-! What each operation answers in any state, as one equation an operation: the response it puts on the output ports, or its
refusal. -/

namespace Sys2Proof.Machine

theorem onesDomain_eq_true_iff (length : Nat) : onesDomain length = true ↔ length ≤ 64 := decide_eq_true_iff

theorem replicateDomain_eq_true_iff (totalWidth esize : Nat) :
    replicateDomain totalWidth esize = true ↔ Claims.replicateDomain totalWidth esize := by
  simp [replicateDomain, Claims.replicateDomain, Nat.dvd_iff_mod_eq_zero, and_assoc]

theorem rorDomain_eq_true_iff (width shiftCount : Nat) :
    rorDomain width shiftCount = true ↔ Claims.rorDomain width shiftCount := by
  simp [rorDomain, Claims.rorDomain, and_assoc]

/-- `ISBITSET` (R71). -/
theorem exec_isBitSet (bit : Field6) (value : Word) (s : State) :
    exec (.isBitSet bit value) s = .next (s.respond (.bit (if value.getLsbD bit.toNat then 1 else 0))) := by
  have hbit : BitVec.ofNat 1 (isBitSetFn value.toNat bit.toNat) = if value.getLsbD bit.toNat then 1 else 0 := by
    rw [isBitSetFn_eq_toNat, BitVec.testBit_toNat]
    cases value.getLsbD bit.toNat <;> rfl
  rw [← hbit]
  rfl

/-- `ONES` inside its domain (R72). -/
theorem exec_ones {length : Field7} (h : length.toNat ≤ 64) (s : State) :
    exec (.ones length) s = .next (s.respond (.word (BitVec.ofNat 64 (onesFn length.toNat)))) :=
  if_pos ((onesDomain_eq_true_iff _).2 h)

/-- `ONES` outside its domain (R73, R139). -/
theorem exec_ones_refused {length : Field7} (h : ¬length.toNat ≤ 64) (s : State) :
    exec (.ones length) s = .refused .onesLengthOutsideDomain :=
  if_neg (mt (onesDomain_eq_true_iff _).1 h)

/-- `HSB` (R74). -/
theorem exec_hsb (value : Word) (s : State) :
    exec (.hsb value) s = .next (s.respond (.index (BitVec.ofInt 7 (highestSetBit value.toNat)))) := rfl

/-- `REPLICATE` inside its domain (R76). -/
theorem exec_replicate {totalWidth esize : Field7} (h : Claims.replicateDomain totalWidth.toNat esize.toNat) (value : Word)
    (s : State) : exec (.replicate totalWidth esize value) s =
      .next (s.respond (.word (BitVec.ofNat 64 (replicateFn value.toNat esize.toNat totalWidth.toNat)))) :=
  if_pos ((replicateDomain_eq_true_iff _ _).2 h)

/-- `REPLICATE` outside its domain (R78, R139). -/
theorem exec_replicate_refused {totalWidth esize : Field7} (h : ¬Claims.replicateDomain totalWidth.toNat esize.toNat)
    (value : Word) (s : State) : exec (.replicate totalWidth esize value) s = .refused .replicateOutsideDomain :=
  if_neg (mt (replicateDomain_eq_true_iff _ _).1 h)

/-- `ROR` inside its domain (R79). -/
theorem exec_ror {width : Field7} {shiftCount : Field6} (h : Claims.rorDomain width.toNat shiftCount.toNat) (value : Word)
    (s : State) : exec (.ror width shiftCount value) s =
      .next (s.respond (.word (BitVec.ofNat 64 (rotateRightFn value.toNat shiftCount.toNat width.toNat)))) :=
  if_pos ((rorDomain_eq_true_iff _ _).2 h)

/-- `ROR` outside its domain (R81, R139). -/
theorem exec_ror_refused {width : Field7} {shiftCount : Field6} (h : ¬Claims.rorDomain width.toNat shiftCount.toNat)
    (value : Word) (s : State) : exec (.ror width shiftCount value) s = .refused .rorOutsideDomain :=
  if_neg (mt (rorDomain_eq_true_iff _ _).1 h)

/-- `DBM.L` (R103). -/
theorem exec_dbmL (N : Bit) (imms immr : Field6) (s : State) :
    exec (.dbmL N imms immr) s = deliver (decodeBitMasks N imms immr true) s := rfl

/-- `DBM.M` (R104). -/
theorem exec_dbmM (N : Bit) (imms immr : Field6) (s : State) :
    exec (.dbmM N imms immr) s = deliver (decodeBitMasks N imms immr false) s := rfl

/-- `MWP` (R117), with the parameter at its default (R8). -/
theorem exec_mwp (sf immN : Bit) (imms immr : Field6) (s : State) :
    exec (.mwp sf immN imms immr) s = .next (s.respond (.preferred (moveWidePreferred .verbatim sf immN imms immr))) := rfl

/-- Either outcome of the decoder is one response, the same in every state (R101, R130). -/
theorem deliver_eq_respond (result : Except UndefCause Word) :
    ∃ r : Response, ∀ s, deliver result s = .next (s.respond r) := by
  cases result with
  | ok w => exact ⟨.wmask w, deliver_ok w⟩
  | error c => exact ⟨.undefined, deliver_error c⟩

/-- Everything an operation can answer (R20, R63, R139): with operands in its domain one response, otherwise one refusal, and
either is the same in every state. -/
theorem exec_cases (i : Instr) :
    (i.wellFormed = true ∧ ∃ r : Response, ∀ s, exec i s = .next (s.respond r)) ∨
    (i.wellFormed = false ∧ ∃ x : Refusal, ∀ s, exec i s = .refused x) := by
  cases i with
  | isBitSet bit value => exact .inl ⟨rfl, _, exec_isBitSet bit value⟩
  | hsb value => exact .inl ⟨rfl, _, exec_hsb value⟩
  | dbmL N imms immr => exact .inl ⟨rfl, deliver_eq_respond _⟩
  | dbmM N imms immr => exact .inl ⟨rfl, deliver_eq_respond _⟩
  | mwp sf immN imms immr => exact .inl ⟨rfl, _, exec_mwp sf immN imms immr⟩
  | ones length =>
    by_cases h : length.toNat ≤ 64
    · exact .inl ⟨(onesDomain_eq_true_iff _).2 h, _, exec_ones h⟩
    · exact .inr ⟨eq_false_of_ne_true (mt (onesDomain_eq_true_iff _).1 h), _, exec_ones_refused h⟩
  | replicate totalWidth esize value =>
    by_cases h : Claims.replicateDomain totalWidth.toNat esize.toNat
    · exact .inl ⟨(replicateDomain_eq_true_iff _ _).2 h, _, exec_replicate h value⟩
    · exact .inr ⟨eq_false_of_ne_true (mt (replicateDomain_eq_true_iff _ _).1 h), _, exec_replicate_refused h value⟩
  | ror width shiftCount value =>
    by_cases h : Claims.rorDomain width.toNat shiftCount.toNat
    · exact .inl ⟨(rorDomain_eq_true_iff _ _).2 h, _, exec_ror h value⟩
    · exact .inr ⟨eq_false_of_ne_true (mt (rorDomain_eq_true_iff _ _).1 h), _, exec_ror_refused h value⟩

/-- No operation faults. -/
theorem exec_ne_fault (i : Instr) (s : State) (f : Fault) : exec i s ≠ .fault f := by
  rcases exec_cases i with ⟨-, r, h⟩ | ⟨-, x, h⟩ <;> simp [h]

end Sys2Proof.Machine
end

section
/-! One step, by what the caller presents next. -/

namespace Sys2Proof.Machine

/-- Nothing is presented (R31, U10). -/
theorem step_of_requests_nil {s : State} (hs : s.requests = []) : step s = .fault .inputsUndriven := by
  simp [step, fetch, hs]

/-- The next request does not decode (U6). -/
theorem step_of_decode_error {s : State} {r : Request} {rest : List Request} {e : DecodeError}
    (hs : s.requests = r :: rest) (hd : decode r = .error e) : step s = .refused .requestWordTooWide := by
  simp [step, fetch, hs, hd]

/-- The next request decodes (R22, R53). -/
theorem step_of_decode_ok {s : State} {r : Request} {rest : List Request} {i : Instr}
    (hs : s.requests = r :: rest) (hd : decode r = .ok i) : step s = exec i { s with requests := rest } := by
  simp [step, fetch, hs, hd]

/-- A step with a request presented does not fault. -/
theorem step_ne_fault {s : State} {r : Request} {rest : List Request} (hs : s.requests = r :: rest) (f : Fault) :
    step s ≠ .fault f := by
  cases hd : decode r with
  | error e => simp [step_of_decode_error hs hd]
  | ok i =>
    rw [step_of_decode_ok hs hd]
    exact exec_ne_fault i _ f

end Sys2Proof.Machine
end

section
/-! What the five ports of R28 carry for each response: the ports of the unit that answered its result, the others nothing. -/

namespace Sys2Proof.Machine

theorem ports_respond_bit (s : State) (q : Bit) :
    Claims.onlyPrimSpeaks (s.respond (.bit q)) ∧ portQ (s.respond (.bit q)) = some (q.setWidth 64) ∧
      portIndex (s.respond (.bit q)) = none := ⟨⟨rfl, rfl, rfl⟩, rfl, rfl⟩

theorem ports_respond_word (s : State) (q : Word) :
    Claims.onlyPrimSpeaks (s.respond (.word q)) ∧ portQ (s.respond (.word q)) = some q ∧
      portIndex (s.respond (.word q)) = none := ⟨⟨rfl, rfl, rfl⟩, rfl, rfl⟩

theorem ports_respond_index (s : State) (i : Field7) :
    Claims.onlyPrimSpeaks (s.respond (.index i)) ∧ portQ (s.respond (.index i)) = none ∧
      portIndex (s.respond (.index i)) = some i.toInt := ⟨⟨rfl, rfl, rfl⟩, rfl, rfl⟩

theorem ports_respond_wmask (s : State) (w : Word) :
    Claims.onlyDbmSpeaks (s.respond (.wmask w)) ∧ portUndef (s.respond (.wmask w)) = some 0 ∧
      portWmask (s.respond (.wmask w)) = some w := ⟨⟨rfl, rfl, rfl⟩, rfl, rfl⟩

theorem ports_respond_undefined (s : State) :
    Claims.onlyDbmSpeaks (s.respond .undefined) ∧ portUndef (s.respond .undefined) = some 1 ∧
      portWmask (s.respond .undefined) = none := ⟨⟨rfl, rfl, rfl⟩, rfl, rfl⟩

theorem ports_respond_preferred (s : State) (p : Bool) :
    Claims.onlyMwpSpeaks (s.respond (.preferred p)) ∧
      portPreferred (s.respond (.preferred p)) = some (BitVec.ofBool p) := ⟨⟨rfl, rfl, rfl, rfl⟩, rfl⟩

end Sys2Proof.Machine
end

section
/-! The results of the primitives as they stand on their ports. -/

namespace Sys2Proof.Machine

/-- Port `q` after `ONES` (R72). -/
theorem toNat_ofNat_onesFn {n : Nat} (h : n ≤ 64) : (BitVec.ofNat 64 (onesFn n)).toNat = 2 ^ n - 1 :=
  Nat.mod_eq_of_lt (Nat.lt_of_lt_of_le (onesFn_lt n) (Nat.pow_le_pow_right (by decide) h))

/-- Port `index` after `HSB`, in seven-bit two's complement, is the integer itself (R74, D12). -/
theorem toInt_ofInt_highestSetBit (value : Word) :
    (BitVec.ofInt 7 (highestSetBit value.toNat)).toInt = highestSetBit value.toNat := by
  have hrange : -1 ≤ highestSetBit value.toNat ∧ highestSetBit value.toNat < 64 := by
    rcases highestSetBit_spec value.toNat value.isLt with ⟨-, h⟩ | ⟨k, hk, h, -⟩ <;> omega
  exact BitVec.toInt_ofInt_eq_self (by decide) (by omega) (by omega)

/-- `HSB` of a 64-bit word, by the word's own bits (R74). -/
theorem highestSetBit_word (value : Word) :
    (value = 0 ∧ highestSetBit value.toNat = -1) ∨
    (∃ k : Nat, k < 64 ∧ highestSetBit value.toNat = k ∧ value.getLsbD k = true ∧
      ∀ j, k < j → value.getLsbD j = false) := by
  rcases highestSetBit_spec value.toNat value.isLt with ⟨h0, h⟩ | h
  · exact .inl ⟨BitVec.eq_of_toNat_eq h0, h⟩
  · exact .inr h

/-- Port `q` after `REPLICATE`, bit by bit (R76). -/
theorem getLsbD_ofNat_replicateFn {totalWidth esize : Nat} (h : Claims.replicateDomain totalWidth esize) (value : Word)
    {i : Nat} (hi : i < 64) : (BitVec.ofNat 64 (replicateFn value.toNat esize totalWidth)).getLsbD i =
      (decide (i < totalWidth) && value.getLsbD (i % esize)) := by
  rw [getLsbD_ofNat64 _ hi, replicateFn_testBit ((replicateDomain_eq_true_iff _ _).2 h), BitVec.testBit_toNat]

/-- Port `q` after `ROR`, bit by bit (R79). -/
theorem getLsbD_ofNat_rotateRightFn {width shiftCount : Nat} (h : Claims.rorDomain width shiftCount) (value : Word)
    {j : Nat} (hj : j < 64) : (BitVec.ofNat 64 (rotateRightFn value.toNat shiftCount width)).getLsbD j =
      (decide (j < width) && value.getLsbD ((j + shiftCount) % width)) := by
  obtain ⟨-, -, hlt⟩ := h
  rw [getLsbD_ofNat64 _ hj, rotateRightFn_testBit hlt, BitVec.testBit_toNat]

end Sys2Proof.Machine
end

section
/-! The outcome of the decoder by the causes of R62, and its value by the table of R92. -/

namespace Sys2Proof.Machine

/-- No valid element size is cause (a) (R93). -/
theorem elementLength_lt_one_iff (N : Bit) (imms : Field6) : elementLength N imms < 1 ↔ Claims.causeA N imms := by
  revert N imms
  decide

/-- The element size of the table is `2 ^ length` (R92, R94). -/
theorem esize_eq_two_pow {N : Bit} {imms : Field6} (h : ¬Claims.causeA N imms) :
    Claims.esize N imms = 2 ^ (elementLength N imms).toNat := by
  revert N imms
  decide

/-- With an element size, cause (b) is that all significant bits of `imms` are set (R95). -/
theorem mod_eq_sub_one_iff_causeB {N : Bit} {imms : Field6} (h : ¬Claims.causeA N imms) :
    imms.toNat % Claims.esize N imms = Claims.esize N imms - 1 ↔ Claims.causeB N imms := by
  revert N imms
  decide

/-- `s` is `imms` modulo the element size (R96). -/
theorem runLast_eq_mod {N : Bit} {imms : Field6} (h : ¬Claims.causeA N imms) :
    Claims.runLast N imms = imms.toNat % Claims.esize N imms := by
  rw [Claims.runLast, esize_eq_two_pow h, Nat.and_two_pow_sub_one_eq_mod]

/-- `r` is `immr` modulo the element size (R96). -/
theorem rotation_eq_mod {N : Bit} {imms : Field6} (h : ¬Claims.causeA N imms) (immr : Field6) :
    Claims.rotation N imms immr = immr.toNat % Claims.esize N imms := by
  rw [Claims.rotation, esize_eq_two_pow h, Nat.and_two_pow_sub_one_eq_mod]

/-- The value of a request with an element size: what `decodeBitMasks` answers unless it rejects (`decodeBitMasks_eq`). -/
def maskValue (N : Bit) (imms immr : Field6) : Word :=
  BitVec.ofNat 64 (expandElement (elementLength N imms).toNat imms immr)

/-- The closed form of the value (R106). -/
theorem getLsbD_maskValue {N : Bit} {imms : Field6} (h : ¬Claims.causeA N imms) (immr : Field6) {i : Nat} (hi : i < 64) :
    (maskValue N imms immr).getLsbD i =
      decide ((i % Claims.esize N imms + Claims.rotation N imms immr) % Claims.esize N imms ≤ Claims.runLast N imms) := by
  have h6 : (elementLength N imms).toNat ≤ 6 := by
    have := elementLength_range N imms
    omega
  rw [maskValue, getLsbD_ofNat64 _ hi, expandElement_testBit h6, runLast_eq_mod h, rotation_eq_mod h, esize_eq_two_pow h]
  simp [hi]

/-- Cause (a) is the outcome in either context (R93). -/
theorem decodeBitMasks_of_causeA {N : Bit} {imms : Field6} (h : Claims.causeA N imms) (immr : Field6) (L : Bool) :
    decodeBitMasks N imms immr L = .error .noElementSize := by
  rcases decodeBitMasks_cases N imms immr L with ⟨-, hd⟩ | ⟨length, h1, -, hlen, -⟩
  · exact hd
  · have := (elementLength_lt_one_iff N imms).2 h
    omega

/-- With an element size the decoder rejects under cause (b) in logical context, and answers the value otherwise (R95, R102). -/
theorem decodeBitMasks_eq {N : Bit} {imms : Field6} (h : ¬Claims.causeA N imms) (immr : Field6) (L : Bool) :
    decodeBitMasks N imms immr L =
      if L = true ∧ Claims.causeB N imms then .error .allOnesRejected else .ok (maskValue N imms immr) := by
  rcases decodeBitMasks_cases N imms immr L with ⟨hlt, -⟩ | ⟨length, -, -, hlen, hcase⟩
  · exact absurd ((elementLength_lt_one_iff N imms).1 hlt) h
  · have hsize : 2 ^ length = Claims.esize N imms := by rw [esize_eq_two_pow h, hlen, Int.toNat_natCast]
    rw [hsize, mod_eq_sub_one_iff_causeB h] at hcase
    rcases hcase with ⟨hL, hB, hd⟩ | ⟨hn, hd⟩
    · rw [hd, if_pos ⟨hL, hB⟩]
    · rw [hd, if_neg hn, maskValue, hlen, Int.toNat_natCast]

/-- `DBM.L` is Undefined under either cause (R131). -/
theorem exec_dbmL_of_cause {N : Bit} {imms : Field6} (h : Claims.causeA N imms ∨ Claims.causeB N imms) (immr : Field6)
    (s : State) : exec (.dbmL N imms immr) s = .next (s.respond .undefined) := by
  by_cases hA : Claims.causeA N imms
  · rw [exec_dbmL, decodeBitMasks_of_causeA hA]
    rfl
  · rw [exec_dbmL, decodeBitMasks_eq hA, if_pos ⟨rfl, h.resolve_left hA⟩]
    rfl

/-- `DBM.L` under neither cause (R103). -/
theorem exec_dbmL_of_no_cause {N : Bit} {imms : Field6} (hA : ¬Claims.causeA N imms) (hB : ¬Claims.causeB N imms)
    (immr : Field6) (s : State) : exec (.dbmL N imms immr) s = .next (s.respond (.wmask (maskValue N imms immr))) := by
  rw [exec_dbmL, decodeBitMasks_eq hA, if_neg fun h => hB h.2, deliver_ok]

/-- `DBM.M` is Undefined under cause (a) (R131). -/
theorem exec_dbmM_of_causeA {N : Bit} {imms : Field6} (h : Claims.causeA N imms) (immr : Field6) (s : State) :
    exec (.dbmM N imms immr) s = .next (s.respond .undefined) := by
  rw [exec_dbmM, decodeBitMasks_of_causeA h]
  rfl

/-- `DBM.M` with an element size (R104). -/
theorem exec_dbmM_of_not_causeA {N : Bit} {imms : Field6} (h : ¬Claims.causeA N imms) (immr : Field6) (s : State) :
    exec (.dbmM N imms immr) s = .next (s.respond (.wmask (maskValue N imms immr))) := by
  rw [exec_dbmM, decodeBitMasks_eq h, if_neg fun hL => Bool.false_ne_true hL.1, deliver_ok]

end Sys2Proof.Machine
end

section
/-! The truth table of the predicate (R118). -/

namespace Sys2Proof.Machine

/-- The MOVN test as written (R114) can hold only at width 32, and there from `imms` 47 on. -/
theorem movn_verbatim_iff (sf : Bit) (imms immr : Field6) :
    (16 ≤ imms.toNat ∧ selectedWidth sf ≤ imms.toNat + 15 ∧
      (immr.toNat : Int) % 16 ≤ movnBound .verbatim (selectedWidth sf) imms.toNat) ↔
    sf = 0 ∧ ((47 ≤ imms.toNat ∧ imms.toNat ≤ 62 ∧ immr.toNat % 16 + 47 ≤ imms.toNat) ∨ imms.toNat = 63) := by
  have himms := imms.isLt
  rcases BitVec.eq_zero_or_eq_one sf with rfl | rfl
  · rw [show selectedWidth 0#1 = 32 from rfl, movnBound]
    simp only [BitVec.ofNat_eq_ofNat, true_and]
    omega
  · rw [show selectedWidth 1#1 = 64 from rfl, movnBound]
    have : ¬(1#1 = 0) := by decide
    simp only [this, false_and, iff_false]
    omega

/-- The rows of R118, in its column for the default parameter, say when the predicate is true. -/
theorem moveWidePreferred_verbatim_iff (sf immN : Bit) (imms immr : Field6) :
    moveWidePreferred .verbatim sf immN imms immr = true ↔
      (immN = sf ∧ imms.toNat < 16 ∧ (16 - immr.toNat % 16) % 16 + imms.toNat ≤ 15) ∨
      (sf = 0 ∧ immN = 0 ∧ 47 ≤ imms.toNat ∧ imms.toNat ≤ 62 ∧ immr.toNat % 16 + 47 ≤ imms.toNat) ∨
      (sf = 0 ∧ immN = 0 ∧ imms.toNat = 63) := by
  have hmovz : (-(immr.toNat : Int)) % 16 ≤ 15 - imms.toNat ↔ (16 - immr.toNat % 16) % 16 + imms.toNat ≤ 15 := by omega
  rw [moveWidePreferred_eq_true_iff, movn_verbatim_iff, hmovz]
  constructor
  · rintro ⟨rfl, hz | ⟨rfl, hn | hn⟩⟩
    · exact .inl ⟨rfl, hz⟩
    · exact .inr (.inl ⟨rfl, rfl, hn⟩)
    · exact .inr (.inr ⟨rfl, rfl, hn⟩)
  · rintro (⟨rfl, hz⟩ | ⟨rfl, rfl, hn⟩ | ⟨rfl, rfl, hn⟩)
    · exact ⟨rfl, .inl hz⟩
    · exact ⟨rfl, .inr ⟨rfl, .inl hn⟩⟩
    · exact ⟨rfl, .inr ⟨rfl, .inr hn⟩⟩

end Sys2Proof.Machine
end

section
/-! The statements about the state, the step and the ports (10_state.md). -/

namespace Sys2Proof.Proofs

open Sys2Proof.Machine

/-- Settles O2: an operation answers or is refused (`exec_cases`), so only an empty list of requests faults. -/
theorem stepFaultsExactlyWhenInputsUndriven : Obligations.StepFaultsExactlyWhenInputsUndriven := by
  refine fun s => ⟨step_of_requests_nil, fun f hf => ?_⟩
  cases hs : s.requests with
  | nil => rfl
  | cons r rest => exact absurd hf (step_ne_fault hs f)

/-- Settles O44: an operation that answers in one state gives the same response in every state (`exec_cases`). -/
theorem resultsDependOnTheOperandsAlone : Obligations.ResultsDependOnTheOperandsAlone := by
  intro i s s' t ht
  rcases exec_cases i with ⟨-, r, h⟩ | ⟨-, x, h⟩
  · rw [h s] at ht
    cases ht
    exact h s'
  · rw [h s] at ht
    cases ht

/-- Settles O50, one conjunct an operation: its response, that response on the ports, and the rule for the result. -/
theorem primPortsCarryTheResultAlone : Obligations.PrimPortsCarryTheResultAlone := by
  refine fun s => ⟨fun bit value => ?_, fun length h => ?_, fun value => ?_, fun totalWidth esize value h => ?_,
    fun width shiftCount value h => ?_⟩
  · obtain ⟨hsilent, hq, hindex⟩ := ports_respond_bit s (if value.getLsbD bit.toNat then 1 else 0)
    refine ⟨_, exec_isBitSet bit value s, hsilent, ?_, hindex⟩
    rw [hq]
    split <;> rfl
  · obtain ⟨hsilent, hq, hindex⟩ := ports_respond_word s (BitVec.ofNat 64 (onesFn length.toNat))
    exact ⟨_, _, exec_ones h s, hsilent, hq, hindex, toNat_ofNat_onesFn h⟩
  · obtain ⟨hsilent, hq, hindex⟩ := ports_respond_index s (BitVec.ofInt 7 (highestSetBit value.toNat))
    rw [toInt_ofInt_highestSetBit] at hindex
    exact ⟨_, _, exec_hsb value s, hsilent, hq, hindex, highestSetBit_word value⟩
  · obtain ⟨hsilent, hq, hindex⟩ :=
      ports_respond_word s (BitVec.ofNat 64 (replicateFn value.toNat esize.toNat totalWidth.toNat))
    exact ⟨_, _, exec_replicate h value s, hsilent, hq, hindex, fun i hi => getLsbD_ofNat_replicateFn h value hi⟩
  · obtain ⟨hsilent, hq, hindex⟩ :=
      ports_respond_word s (BitVec.ofNat 64 (rotateRightFn value.toNat shiftCount.toNat width.toNat))
    exact ⟨_, _, exec_ror h value s, hsilent, hq, hindex, fun j hj => getLsbD_ofNat_rotateRightFn h value hj⟩

/-- Settles O51, by the three outcomes: cause (a), cause (b), neither. -/
theorem dbmPortsCarryTheOutcomeAlone : Obligations.DbmPortsCarryTheOutcomeAlone := by
  intro N imms immr s
  obtain ⟨hsilentU, hundef⟩ := ports_respond_undefined s
  obtain ⟨hsilentW, hundef0, hwmask⟩ := ports_respond_wmask s (maskValue N imms immr)
  by_cases hA : Claims.causeA N imms
  · exact ⟨_, _, exec_dbmL_of_cause (.inl hA) immr s, exec_dbmM_of_causeA hA immr s, hsilentU, hsilentU,
      fun _ => hundef, fun _ => hundef, fun h => absurd hA h⟩
  · have hbits := fun i (hi : i < 64) => getLsbD_maskValue hA immr hi
    by_cases hB : Claims.causeB N imms
    · exact ⟨_, _, exec_dbmL_of_cause (.inr hB) immr s, exec_dbmM_of_not_causeA hA immr s, hsilentU, hsilentW,
        fun _ => hundef, fun h => absurd h hA, fun _ => ⟨_, hundef0, hwmask, fun h => absurd hB h, hbits⟩⟩
    · exact ⟨_, _, exec_dbmL_of_no_cause hA hB immr s, exec_dbmM_of_not_causeA hA immr s, hsilentW, hsilentW,
        fun h => (h.elim hA hB).elim, fun h => absurd h hA,
        fun _ => ⟨_, hundef0, hwmask, fun _ => ⟨hundef0, hwmask⟩, hbits⟩⟩

/-- Settles O52: the port carries the predicate, which is true on the rows of R118 (`moveWidePreferred_verbatim_iff`). -/
theorem mwpPortCarriesTheBooleanAlone : Obligations.MwpPortCarriesTheBooleanAlone := by
  intro sf immN imms immr s
  obtain ⟨hsilent, hport⟩ := ports_respond_preferred s (moveWidePreferred .verbatim sf immN imms immr)
  refine ⟨_, exec_mwp sf immN imms immr s, hsilent, ?_⟩
  simp only [hport, ← moveWidePreferred_verbatim_iff]
  cases moveWidePreferred .verbatim sf immN imms immr <;> rfl

/-- Settles O1: the fields of `State.reset`, and each port as a view of them. -/
theorem resetLeavesNoValueOnAnyPort : Obligations.ResetLeavesNoValueOnAnyPort :=
  ⟨State.reset_requests, rfl, rfl, rfl, rfl, rfl⟩

end Sys2Proof.Proofs
end

section
/-! The statements about repeated evaluation (20_memory.md). -/

namespace Sys2Proof.Proofs

/-- Settles O45: the response does not depend on the state (`resultsDependOnTheOperandsAlone`), so evaluated in `t` the
operation puts on the outputs of `t` what they carry already. -/
theorem repeatingAnEvaluationChangesNothing : Obligations.RepeatingAnEvaluationChangesNothing :=
  fun i s t ht => resultsDependOnTheOperandsAlone i s t t ht

end Sys2Proof.Proofs
end

section
/-! The request words as numbers: each operand is a digit of the packed word, at the place the format gives it. -/

namespace Sys2Proof

/-- Two parts of a packed word, on the request lines: nothing is lost and nothing overlaps. -/
theorem toNat_lines_append {m n : Nat} (h : m + n ≤ 80) (x : BitVec m) (y : BitVec n) :
    ((x ++ y).setWidth 80).toNat = x.toNat * 2 ^ n + y.toNat := by
  rw [BitVec.toNat_setWidth_of_le h, BitVec.toNat_append, ← Nat.shiftLeft_add_eq_or_of_lt y.isLt, Nat.shiftLeft_eq]

/-- Three parts of a packed word. -/
theorem toNat_lines_append_append {l m n : Nat} (h : l + m + n ≤ 80) (x : BitVec l) (y : BitVec m) (z : BitVec n) :
    ((x ++ y ++ z).setWidth 80).toNat = x.toNat * 2 ^ (m + n) + y.toNat * 2 ^ n + z.toNat := by
  rw [toNat_lines_append h, BitVec.toNat_append, ← Nat.shiftLeft_add_eq_or_of_lt y.isLt, Nat.shiftLeft_eq, Nat.add_mul,
    Nat.mul_assoc, Nat.pow_add]

/-- A bit above `F13` and the fields of `F13` (R52, R54, R56). -/
theorem toNat_lines_packF13 (b N : Bit) (immr imms : Field6) :
    ((b ++ Machine.packF13 N immr imms).setWidth 80).toNat =
      b.toNat * 2 ^ 13 + N.toNat * 2 ^ 12 + immr.toNat * 2 ^ 6 + imms.toNat := by
  have hF13 := toNat_lines_append_append (by decide) N immr imms
  rw [BitVec.toNat_setWidth_of_le (by decide)] at hF13
  rw [toNat_lines_append (by decide), Machine.packF13, hF13]
  omega

/-- The word of `ISBITSET` (R57). -/
theorem toNat_encode_isBitSet (bit : Field6) (value : Word) :
    (encode (.isBitSet bit value)).word.toNat = bit.toNat * 2 ^ 64 + value.toNat :=
  toNat_lines_append (by decide) bit value

/-- The word of `ONES` (R57). -/
theorem toNat_encode_ones (length : Field7) : (encode (.ones length)).word.toNat = length.toNat :=
  BitVec.toNat_setWidth_of_le (by decide)

/-- The word of `HSB` (R57). -/
theorem toNat_encode_hsb (value : Word) : (encode (.hsb value)).word.toNat = value.toNat :=
  BitVec.toNat_setWidth_of_le (by decide)

/-- The word of `REPLICATE` (R57). -/
theorem toNat_encode_replicate (totalWidth esize : Field7) (value : Word) :
    (encode (.replicate totalWidth esize value)).word.toNat =
      totalWidth.toNat * 2 ^ 71 + esize.toNat * 2 ^ 64 + value.toNat :=
  toNat_lines_append_append (by decide) totalWidth esize value

/-- The word of `ROR` (R57). -/
theorem toNat_encode_ror (width : Field7) (shiftCount : Field6) (value : Word) :
    (encode (.ror width shiftCount value)).word.toNat =
      width.toNat * 2 ^ 70 + shiftCount.toNat * 2 ^ 64 + value.toNat :=
  toNat_lines_append_append (by decide) width shiftCount value

/-- The word of `DBM.L`: bit 13 is 1 (R54). -/
theorem toNat_encode_dbmL (N : Bit) (imms immr : Field6) :
    (encode (.dbmL N imms immr)).word.toNat = 2 ^ 13 + N.toNat * 2 ^ 12 + immr.toNat * 2 ^ 6 + imms.toNat :=
  toNat_lines_packF13 1#1 N immr imms

/-- The word of `DBM.M`: bit 13 is 0 (R54). -/
theorem toNat_encode_dbmM (N : Bit) (imms immr : Field6) :
    (encode (.dbmM N imms immr)).word.toNat = N.toNat * 2 ^ 12 + immr.toNat * 2 ^ 6 + imms.toNat := by
  have h := toNat_lines_packF13 0#1 N immr imms
  rwa [BitVec.toNat_zero, Nat.zero_mul, Nat.zero_add] at h

/-- The word of `MWP` (R56). -/
theorem toNat_encode_mwp (sf immN : Bit) (imms immr : Field6) :
    (encode (.mwp sf immN imms immr)).word.toNat =
      sf.toNat * 2 ^ 13 + immN.toNat * 2 ^ 12 + immr.toNat * 2 ^ 6 + imms.toNat :=
  toNat_lines_packF13 sf immN immr imms

/-- Packed words fit (R54, R56, R57). -/
theorem encode_fits (i : Instr) : (encode i).word.toNat < 2 ^ (encode i).format.requestBits := by
  cases i with
  | isBitSet bit value => exact Laws.Fits.isBitSet bit value
  | ones length => exact Laws.Fits.ones length
  | hsb value => exact Laws.Fits.hsb value
  | replicate totalWidth esize value => exact Laws.Fits.replicate totalWidth esize value
  | ror width shiftCount value => exact Laws.Fits.ror width shiftCount value
  | dbmL N imms immr => exact Laws.Fits.dbmL N imms immr
  | dbmM N imms immr => exact Laws.Fits.dbmM N imms immr
  | mwp sf immN imms immr => exact Laws.Fits.mwp sf immN imms immr

/-- A field as a number: a digit of the word. -/
theorem toNat_extractLsb'_eq_div_mod (w : RequestLines) (start len : Nat) :
    (w.extractLsb' start len).toNat = w.toNat / 2 ^ start % 2 ^ len := by
  rw [BitVec.extractLsb'_toNat, Nat.shiftRight_eq_div_pow]

/-- A field of a word is the operand whose number stands in its place. -/
theorem extractLsb'_eq_of_toNat {w : RequestLines} {start len : Nat} {x : BitVec len}
    (h : w.toNat / 2 ^ start % 2 ^ len = x.toNat) : w.extractLsb' start len = x :=
  BitVec.eq_of_toNat_eq ((toNat_extractLsb'_eq_div_mod w start len).trans h)

/-- One line of a word, by its place in the number. -/
theorem getLsbD_eq_true_iff_div_mod (w : RequestLines) (i : Nat) : w.getLsbD i = true ↔ w.toNat / 2 ^ i % 2 = 1 := by
  rw [BitVec.getLsbD, Nat.testBit_eq_decide_div_mod_eq, decide_eq_true_iff]

/-- A request on unit DBM with bit 13 set is `DBM.L` (R54). -/
theorem decodeFields_fDbm_of_set {w : RequestLines} (h : w.getLsbD 13 = true) :
    decodeFields .fDbm w = .dbmL (w.extractLsb' 12 1) (w.extractLsb' 0 6) (w.extractLsb' 6 6) := by
  rw [decodeFields, h]

/-- A request on unit DBM with bit 13 clear is `DBM.M` (R54). -/
theorem decodeFields_fDbm_of_clear {w : RequestLines} (h : w.getLsbD 13 = false) :
    decodeFields .fDbm w = .dbmM (w.extractLsb' 12 1) (w.extractLsb' 0 6) (w.extractLsb' 6 6) := by
  rw [decodeFields, h]

/-- Each operand is read back from the digits it was packed on. -/
theorem decodeFields_encode (i : Instr) : decodeFields (encode i).format (encode i).word = i := by
  cases i with
  | isBitSet bit value =>
    have hw := toNat_encode_isBitSet bit value
    exact (Instr.isBitSet.injEq ..).mpr ⟨extractLsb'_eq_of_toNat (by omega), extractLsb'_eq_of_toNat (by omega)⟩
  | ones length =>
    have hw := toNat_encode_ones length
    exact congrArg Instr.ones (extractLsb'_eq_of_toNat (by omega))
  | hsb value =>
    have hw := toNat_encode_hsb value
    exact congrArg Instr.hsb (extractLsb'_eq_of_toNat (by omega))
  | replicate totalWidth esize value =>
    have hw := toNat_encode_replicate totalWidth esize value
    exact (Instr.replicate.injEq ..).mpr ⟨extractLsb'_eq_of_toNat (by omega), extractLsb'_eq_of_toNat (by omega),
      extractLsb'_eq_of_toNat (by omega)⟩
  | ror width shiftCount value =>
    have hw := toNat_encode_ror width shiftCount value
    exact (Instr.ror.injEq ..).mpr ⟨extractLsb'_eq_of_toNat (by omega), extractLsb'_eq_of_toNat (by omega),
      extractLsb'_eq_of_toNat (by omega)⟩
  | dbmL N imms immr =>
    have hw := toNat_encode_dbmL N imms immr
    have hL : (encode (.dbmL N imms immr)).word.getLsbD 13 = true :=
      (getLsbD_eq_true_iff_div_mod _ 13).2 (by omega)
    refine (decodeFields_fDbm_of_set hL).trans ((Instr.dbmL.injEq ..).mpr ⟨?_, ?_, ?_⟩) <;>
      exact extractLsb'_eq_of_toNat (by omega)
  | dbmM N imms immr =>
    have hw := toNat_encode_dbmM N imms immr
    have hL : (encode (.dbmM N imms immr)).word.getLsbD 13 = false :=
      eq_false_of_ne_true (mt (getLsbD_eq_true_iff_div_mod _ 13).1 (by omega))
    refine (decodeFields_fDbm_of_clear hL).trans ((Instr.dbmM.injEq ..).mpr ⟨?_, ?_, ?_⟩) <;>
      exact extractLsb'_eq_of_toNat (by omega)
  | mwp sf immN imms immr =>
    have hw := toNat_encode_mwp sf immN imms immr
    exact (Instr.mwp.injEq ..).mpr ⟨extractLsb'_eq_of_toNat (by omega), extractLsb'_eq_of_toNat (by omega),
      extractLsb'_eq_of_toNat (by omega), extractLsb'_eq_of_toNat (by omega)⟩

end Sys2Proof
end

section
/-! Packing what was read from a word that fits drops no bit of it. -/

namespace Sys2Proof

/-- A packed request is known by its format and its word as a number. -/
theorem encode_eq_of_toNat {i : Instr} {f : Format} {w : RequestLines} (hf : (encode i).format = f)
    (hw : (encode i).word.toNat = w.toNat) : encode i = ⟨f, w⟩ :=
  congrArg₂ Request.mk hf (BitVec.eq_of_toNat_eq hw)

/-- Packing the fields of a word that fits gives the word back: its digits at the places of the format add up to it. -/
theorem encode_decodeFields {f : Format} {w : RequestLines} (h : w.toNat < 2 ^ f.requestBits) :
    encode (decodeFields f w) = ⟨f, w⟩ := by
  cases f with
  | pBit =>
    replace h : w.toNat < 2 ^ 70 := h
    refine encode_eq_of_toNat rfl ((toNat_encode_isBitSet ..).trans ?_)
    simp only [toNat_extractLsb'_eq_div_mod]
    omega
  | pLen =>
    replace h : w.toNat < 2 ^ 7 := h
    refine encode_eq_of_toNat rfl ((toNat_encode_ones ..).trans ?_)
    simp only [toNat_extractLsb'_eq_div_mod]
    omega
  | pVal =>
    replace h : w.toNat < 2 ^ 64 := h
    refine encode_eq_of_toNat rfl ((toNat_encode_hsb ..).trans ?_)
    simp only [toNat_extractLsb'_eq_div_mod]
    omega
  | pRep =>
    replace h : w.toNat < 2 ^ 78 := h
    refine encode_eq_of_toNat rfl ((toNat_encode_replicate ..).trans ?_)
    simp only [toNat_extractLsb'_eq_div_mod]
    omega
  | pRor =>
    replace h : w.toNat < 2 ^ 77 := h
    refine encode_eq_of_toNat rfl ((toNat_encode_ror ..).trans ?_)
    simp only [toNat_extractLsb'_eq_div_mod]
    omega
  | fDbm =>
    replace h : w.toNat < 2 ^ 14 := h
    by_cases hL : w.toNat / 2 ^ 13 % 2 = 1
    · rw [decodeFields_fDbm_of_set ((getLsbD_eq_true_iff_div_mod w 13).2 hL)]
      refine encode_eq_of_toNat rfl ((toNat_encode_dbmL ..).trans ?_)
      simp only [toNat_extractLsb'_eq_div_mod]
      omega
    · rw [decodeFields_fDbm_of_clear (eq_false_of_ne_true (mt (getLsbD_eq_true_iff_div_mod w 13).1 hL))]
      refine encode_eq_of_toNat rfl ((toNat_encode_dbmM ..).trans ?_)
      simp only [toNat_extractLsb'_eq_div_mod]
      omega
  | fMwp =>
    replace h : w.toNat < 2 ^ 14 := h
    refine encode_eq_of_toNat rfl ((toNat_encode_mwp ..).trans ?_)
    simp only [toNat_extractLsb'_eq_div_mod]
    omega

/-- The decoder accepts exactly the words that fit their format (U6, log 3). -/
theorem exists_decode_eq_ok_iff (r : Request) : (∃ i, decode r = .ok i) ↔ r.word.toNat < 2 ^ r.format.requestBits := by
  simp [decode_eq_ok_iff]

end Sys2Proof
end

section
/-! What a response word carries: the result of an operation fits the width of its format's response and is read back, for
every value of the lines that are free. -/

namespace Sys2Proof.Machine

/-- In format `f`, result `r` fits the response word and is read back from it, whatever the free lines carry (R53, R55). -/
def Carries (f : Format) (r : Response) : Prop :=
  ∀ lines : Word, (responseWord lines r).toNat < 2 ^ responseBits f ∧ readResponse f (responseWord lines r) = r

/-- A result on the low lines of the response word stands there as it is (R53, R57). -/
theorem setWidth_fits_and_reads_back {n : Nat} (h : n ≤ 65) (x : BitVec n) :
    (x.setWidth 65).toNat < 2 ^ n ∧ (x.setWidth 65).extractLsb' 0 n = x := by
  rw [BitVec.toNat_setWidth_of_le h, BitVec.extractLsb'_setWidth_of_le (by omega), BitVec.extractLsb'_eq_self]
  exact ⟨x.isLt, rfl⟩

/-- Port `q` of `ISBITSET`. -/
theorem carries_bit (q : Bit) : Carries .pBit (.bit q) := by
  obtain ⟨hfits, hread⟩ := setWidth_fits_and_reads_back (by decide) q
  exact fun _ => ⟨hfits, congrArg Response.bit hread⟩

/-- Port `q` of `ONES`, `REPLICATE` and `ROR`: a format of 64 bits read as one word. -/
theorem carries_word {f : Format} (hbits : responseBits f = 64)
    (hread : ∀ w, readResponse f w = .word (w.extractLsb' 0 64)) (q : Word) : Carries f (.word q) := by
  obtain ⟨hfits, hq⟩ := setWidth_fits_and_reads_back (by decide) q
  intro lines
  rw [hbits, hread, responseWord, hq]
  exact ⟨hfits, rfl⟩

/-- Port `index` of `HSB`. -/
theorem carries_index (i : Field7) : Carries .pVal (.index i) := by
  obtain ⟨hfits, hread⟩ := setWidth_fits_and_reads_back (by decide) i
  exact fun _ => ⟨hfits, congrArg Response.index hread⟩

/-- Port `preferred` of unit MWP. -/
theorem carries_preferred (p : Bool) : Carries .fMwp (.preferred p) := by
  obtain ⟨hfits, -⟩ := setWidth_fits_and_reads_back (by decide) (BitVec.ofBool p)
  have hread : ((BitVec.ofBool p).setWidth 65).getLsbD 0 = p := by simp
  exact fun _ => ⟨hfits, congrArg Response.preferred hread⟩

/-- `Ok(wmask)`: bit 64 is 0 and the lines below it are the value (R55). -/
theorem carries_wmask (w : Word) : Carries .fDbm (.wmask w) := by
  have h64 : ((0#1) ++ w).getLsbD 64 = false := by
    rw [BitVec.getLsbD_append]
    rfl
  have hlow : ((0#1) ++ w).extractLsb' 0 64 = w := BitVec.extractLsb'_append_eq_right
  refine fun _ => ⟨BitVec.isLt _, ?_⟩
  rw [responseWord, readResponse, h64, hlow]

/-- Undefined: bit 64 is 1 and alone is read (R55, log 5). -/
theorem carries_undefined : Carries .fDbm .undefined := by
  intro lines
  have h64 : ((1#1) ++ lines).getLsbD 64 = true := by
    rw [BitVec.getLsbD_append]
    rfl
  refine ⟨BitVec.isLt _, ?_⟩
  rw [responseWord, readResponse, h64]

/-- Either outcome of the decoder is carried (R55). -/
theorem carries_deliver (result : Except UndefCause Word) :
    ∃ r : Response, (∀ s, deliver result s = .next (s.respond r)) ∧ Carries .fDbm r := by
  cases result with
  | ok w => exact ⟨.wmask w, deliver_ok w, carries_wmask w⟩
  | error c => exact ⟨.undefined, deliver_error c, carries_undefined⟩

/-- The response of an operation in its domain is carried in the operation's own format. -/
theorem exec_carries {i : Instr} (h : i.wellFormed = true) :
    ∃ r : Response, (∀ s, exec i s = .next (s.respond r)) ∧ Carries (encode i).format r := by
  cases i with
  | isBitSet bit value => exact ⟨_, exec_isBitSet bit value, carries_bit _⟩
  | ones length => exact ⟨_, exec_ones ((onesDomain_eq_true_iff _).1 h), carries_word rfl (fun _ => rfl) _⟩
  | hsb value => exact ⟨_, exec_hsb value, carries_index _⟩
  | replicate totalWidth esize value =>
    exact ⟨_, exec_replicate ((replicateDomain_eq_true_iff _ _).1 h) value, carries_word rfl (fun _ => rfl) _⟩
  | ror width shiftCount value =>
    exact ⟨_, exec_ror ((rorDomain_eq_true_iff _ _).1 h) value, carries_word rfl (fun _ => rfl) _⟩
  | dbmL N imms immr => exact carries_deliver _
  | dbmM N imms immr => exact carries_deliver _
  | mwp sf immN imms immr => exact ⟨_, exec_mwp sf immN imms immr, carries_preferred _⟩

end Sys2Proof.Machine
end

section
/-! The statements about the request and response words (30_encoding.md). -/

namespace Sys2Proof.Proofs

open Sys2Proof.Machine

/-- Settles O5: the packed word fits its format (`encode_fits`), and each field is read back (`decodeFields_encode`). -/
theorem decodeOfEncodeIsTheOperation : Obligations.DecodeOfEncodeIsTheOperation :=
  fun i => decode_eq_ok_iff.2 ⟨encode_fits i, decodeFields_encode i⟩

/-- Settles O6: a request that decodes fits its format, and then its fields are all of its bits (`encode_decodeFields`). -/
theorem encodeOfDecodeIsTheRequest : Obligations.EncodeOfDecodeIsTheRequest := by
  intro r i hd
  obtain ⟨hfits, rfl⟩ := decode_eq_ok_iff.1 hd
  exact encode_decodeFields hfits

/-- Settles O40: what an operation can answer (`exec_cases`), and the three domains. -/
theorem everyOperationInItsDomainCompletes : Obligations.EveryOperationInItsDomainCompletes := by
  refine fun i s => ⟨fun hi => ?_, fun hi => ?_, fun _ _ _ => ⟨rfl, rfl⟩, fun _ _ _ _ => rfl, fun _ _ => ⟨rfl, rfl⟩,
    fun length => onesDomain_eq_true_iff _, fun totalWidth esize _ => replicateDomain_eq_true_iff _ _,
    fun width shiftCount _ => rorDomain_eq_true_iff _ _⟩
  · rcases exec_cases i with ⟨-, r, h⟩ | ⟨hwf, -⟩
    · exact ⟨r, h s⟩
    · exact absurd (hi.symm.trans hwf) (by decide)
  · rcases exec_cases i with ⟨hwf, -⟩ | ⟨-, x, h⟩
    · exact absurd (hi.symm.trans hwf) (by decide)
    · exact ⟨x, h s⟩

/-- Settles O42: only an operation in its domain answers (`exec_cases`), and its format carries its response
(`exec_carries`). -/
theorem responseWordsCarryTheResult : Obligations.ResponseWordsCarryTheResult := by
  intro i s t ht
  rcases exec_cases i with ⟨hwf, -⟩ | ⟨-, x, hx⟩
  · obtain ⟨r, hr, hcarries⟩ := exec_carries hwf
    rw [hr s] at ht
    cases ht
    exact ⟨r, rfl, hcarries⟩
  · rw [hx s] at ht
    cases ht

/-- Settles O3 (`step_of_decode_ok`). -/
theorem stepRunsTheDecodedRequest : Obligations.StepRunsTheDecodedRequest :=
  fun _ _ _ _ hs hd => step_of_decode_ok hs hd

/-- Settles O7, one conjunct an operation. -/
theorem requestWordsHaveTheSpecsLayout : Obligations.RequestWordsHaveTheSpecsLayout :=
  ⟨fun bit value => ⟨rfl, toNat_encode_isBitSet bit value⟩,
   fun length => ⟨rfl, toNat_encode_ones length⟩,
   fun value => ⟨rfl, toNat_encode_hsb value⟩,
   fun totalWidth esize value => ⟨rfl, toNat_encode_replicate totalWidth esize value⟩,
   fun width shiftCount value => ⟨rfl, toNat_encode_ror width shiftCount value⟩,
   fun N imms immr => ⟨rfl, toNat_encode_dbmL N imms immr⟩,
   fun N imms immr => ⟨rfl, toNat_encode_dbmM N imms immr⟩,
   fun sf immN imms immr => ⟨rfl, toNat_encode_mwp sf immN imms immr⟩⟩

/-- Settles O8: the widths of the statement are those of `Format.requestBits`, format by format. -/
theorem decoderAcceptsExactlyTheWordsThatFit : Obligations.DecoderAcceptsExactlyTheWordsThatFit := by
  rintro ⟨f, w⟩
  rw [exists_decode_eq_ok_iff]
  cases f <;> rfl

/-- Settles O43: the ports of the two outcomes of unit DBM. -/
theorem undefIsBit64OfTheDecoderResponse : Obligations.UndefIsBit64OfTheDecoderResponse := by
  intro w lines requests
  obtain ⟨⟨hqW, hindexW, hprefW⟩, hundefW, hwmaskW⟩ := ports_respond_wmask ⟨requests, none⟩ w
  obtain ⟨⟨hqU, hindexU, hprefU⟩, hundefU, hwmaskU⟩ := ports_respond_undefined ⟨requests, none⟩
  refine ⟨rfl, rfl, hundefW, hwmaskW, hundefU, hwmaskU, ?_⟩
  rintro r (rfl | rfl)
  · exact ⟨hprefW, hqW, hindexW⟩
  · exact ⟨hprefU, hqU, hindexU⟩

end Sys2Proof.Proofs
end

section
/-! Every result is a legal one: an index of -1 to 63, and a value of the decoder with the shape of R106. -/

namespace Sys2Proof.Machine

/-- `HSB` answers -1 to 63 (R74). -/
theorem highestSetBit_range (value : Word) : -1 ≤ highestSetBit value.toNat ∧ highestSetBit value.toNat ≤ 63 := by
  rcases highestSetBit_word value with ⟨-, h⟩ | ⟨k, hk, h, -⟩ <;> omega

/-- Any answer of `HSB` is legal. -/
theorem legal_index (value : Word) : (Response.index (BitVec.ofInt 7 (highestSetBit value.toNat))).legal := by
  rw [Response.legal, toInt_ofInt_highestSetBit]
  exact highestSetBit_range value

/-- With an element size, the length of the element is 1 to 6 (R92, R93). -/
theorem elementLength_toNat_range {N : Bit} {imms : Field6} (h : ¬Claims.causeA N imms) :
    1 ≤ (elementLength N imms).toNat ∧ (elementLength N imms).toNat ≤ 6 := by
  have hpos := mt (elementLength_lt_one_iff N imms).1 h
  have hrange := elementLength_range N imms
  omega

/-- An element is not empty and fits 64 bits (R92). -/
theorem esize_range {N : Bit} {imms : Field6} (h : ¬Claims.causeA N imms) :
    0 < Claims.esize N imms ∧ Claims.esize N imms ≤ 64 := by
  rw [esize_eq_two_pow h]
  exact ⟨Nat.two_pow_pos _, Nat.pow_le_pow_right (n := 2) (by decide) (elementLength_toNat_range h).2⟩

/-- The run ends inside the element (R96). -/
theorem runLast_lt_esize {N : Bit} {imms : Field6} (h : ¬Claims.causeA N imms) :
    Claims.runLast N imms < Claims.esize N imms := by
  rw [runLast_eq_mod h]
  exact Nat.mod_lt _ (esize_range h).1

/-- The rotation stays inside the element (R96). -/
theorem rotation_lt_esize {N : Bit} {imms : Field6} (h : ¬Claims.causeA N imms) (immr : Field6) :
    Claims.rotation N imms immr < Claims.esize N imms := by
  rw [rotation_eq_mod h]
  exact Nat.mod_lt _ (esize_range h).1

/-- A rotation brings some position of the element to its bottom. -/
theorem exists_add_mod_eq_zero {e r : Nat} (h : r < e) : ∃ i < e, (i + r) % e = 0 :=
  ⟨(e - r) % e, Nat.mod_lt _ (Nat.zero_lt_of_lt h), by rw [Nat.mod_add_mod, Nat.sub_add_cancel h.le, Nat.mod_self]⟩

/-- The value has a bit set: the one that the rotation brings to the bottom of the run (R108(b)). -/
theorem maskValue_ne_zero {N : Bit} {imms : Field6} (h : ¬Claims.causeA N imms) (immr : Field6) :
    maskValue N imms immr ≠ 0 := by
  obtain ⟨i, hi, hbottom⟩ := exists_add_mod_eq_zero (rotation_lt_esize h immr)
  have hset : (maskValue N imms immr).getLsbD i = true := by
    rw [getLsbD_maskValue h immr (hi.trans_le (esize_range h).2), Nat.mod_eq_of_lt hi, hbottom]
    exact decide_eq_true (Nat.zero_le _)
  intro hzero
  simp [hzero] at hset

/-- Any value of the decoder is legal (R106, R108(b)). -/
theorem legal_maskValue {N : Bit} {imms : Field6} (h : ¬Claims.causeA N imms) (immr : Field6) :
    (Response.wmask (maskValue N imms immr)).legal := by
  obtain ⟨h1, h6⟩ := elementLength_toNat_range h
  have hs := runLast_lt_esize h
  have hr := rotation_lt_esize h immr
  have hbits := fun i (hi : i < 64) => getLsbD_maskValue h immr hi
  rw [esize_eq_two_pow h] at hs hr hbits
  exact ⟨maskValue_ne_zero h immr, _, _, _, h1, h6, hs, hr, hbits⟩

/-- Either outcome of the decoder is legal, in either context. -/
theorem legal_decodeBitMasks (N : Bit) (imms immr : Field6) (L : Bool) :
    ∃ r : Response, r.legal ∧ ∀ s, deliver (decodeBitMasks N imms immr L) s = .next (s.respond r) := by
  by_cases hA : Claims.causeA N imms
  · rw [decodeBitMasks_of_causeA hA]
    exact ⟨.undefined, trivial, deliver_error _⟩
  · rw [decodeBitMasks_eq hA]
    split
    · exact ⟨.undefined, trivial, deliver_error _⟩
    · exact ⟨_, legal_maskValue hA immr, deliver_ok _⟩

/-- The response of an operation in its domain is legal. -/
theorem exec_legal {i : Instr} (h : i.wellFormed = true) :
    ∃ r : Response, r.legal ∧ ∀ s, exec i s = .next (s.respond r) := by
  cases i with
  | isBitSet bit value => exact ⟨.bit _, trivial, exec_isBitSet bit value⟩
  | ones length => exact ⟨.word _, trivial, exec_ones ((onesDomain_eq_true_iff _).1 h)⟩
  | hsb value => exact ⟨_, legal_index value, exec_hsb value⟩
  | replicate totalWidth esize value =>
    exact ⟨.word _, trivial, exec_replicate ((replicateDomain_eq_true_iff _ _).1 h) value⟩
  | ror width shiftCount value => exact ⟨.word _, trivial, exec_ror ((rorDomain_eq_true_iff _ _).1 h) value⟩
  | dbmL N imms immr => exact legal_decodeBitMasks N imms immr true
  | dbmM N imms immr => exact legal_decodeBitMasks N imms immr false
  | mwp sf immN imms immr => exact ⟨.preferred _, trivial, exec_mwp sf immN imms immr⟩

/-- An operation that answers leaves legal outputs, whatever they were before. -/
theorem outputsLegal_of_exec {i : Instr} {s t : State} (ht : exec i s = .next t) : t.outputsLegal := by
  rcases exec_cases i with ⟨hwf, -⟩ | ⟨-, x, hx⟩
  · obtain ⟨r, hlegal, hr⟩ := exec_legal hwf
    rw [hr s] at ht
    cases ht
    rintro _ ⟨⟩
    exact hlegal
  · rw [hx s] at ht
    cases ht

/-- A step that answers is the evaluation of the operation presented (R53). -/
theorem exists_exec_of_step {s t : State} (ht : step s = .next t) :
    ∃ (r : Request) (rest : List Request) (i : Instr),
      s.requests = r :: rest ∧ decode r = .ok i ∧ exec i { s with requests := rest } = .next t := by
  cases hs : s.requests with
  | nil =>
    rw [step_of_requests_nil hs] at ht
    cases ht
  | cons r rest =>
    cases hd : decode r with
    | error e =>
      rw [step_of_decode_error hs hd] at ht
      cases ht
    | ok i =>
      rw [step_of_decode_ok hs hd] at ht
      exact ⟨r, rest, i, rfl, hd, ht⟩

end Sys2Proof.Machine
end

section
/-! The words of the primitives on port `q`: as numbers, their and, and their set bits. -/

namespace Sys2Proof.Machine

/-- A result that fits a field of at most 64 bits stands on the port unchanged. -/
theorem toNat_ofNat64 {x n : Nat} (hx : x < 2 ^ n) (hn : n ≤ 64) : (BitVec.ofNat 64 x).toNat = x := by
  rw [BitVec.toNat_ofNat]
  exact Nat.mod_eq_of_lt (Nat.lt_of_lt_of_le hx (Nat.pow_le_pow_right (by decide) hn))

/-- Masking a word is masking its number. -/
theorem ofNat_toNat_and (v : Word) (m : Nat) : BitVec.ofNat 64 (v.toNat &&& m) = v &&& BitVec.ofNat 64 m := by
  rw [BitVec.ofNat_and, BitVec.ofNat_toNat, BitVec.setWidth_eq]

/-- A masked value fits the mask. -/
theorem and_onesFn_lt (v n : Nat) : v &&& onesFn n < 2 ^ n := by
  rw [and_onesFn]
  exact Nat.mod_lt _ (Nat.two_pow_pos n)

/-- The set bits of a word, counted over the field its number fits in. -/
theorem popcount_ofNat {x n : Nat} (hx : x < 2 ^ n) (hn : n ≤ 64) :
    Claims.popcount (BitVec.ofNat 64 x) = Nat.count (fun i => x.testBit i = true) n := by
  calc Claims.popcount (BitVec.ofNat 64 x)
      = Nat.count (fun i => (BitVec.ofNat 64 x).getLsbD i = true) 64 := by simp [Claims.popcount, Nat.count]
    _ = Nat.count (fun i => x.testBit i = true) 64 := count_eq_of_agree fun i hi => by rw [getLsbD_ofNat64 x hi]
    _ = Nat.count (fun i => x.testBit i = true) n := count_testBit_of_lt hx hn

/-- The set bits of a word under `Ones(n)`. -/
theorem popcount_and_onesFn (v : Word) {n : Nat} (hn : n ≤ 64) :
    Claims.popcount (v &&& BitVec.ofNat 64 (onesFn n)) =
      Nat.count (fun i => (v.toNat &&& onesFn n).testBit i = true) n := by
  rw [← ofNat_toNat_and, popcount_ofNat (and_onesFn_lt _ _) hn]

end Sys2Proof.Machine
end

section
/-! The statements about the bit primitives (40_bit_primitives.md). -/

namespace Sys2Proof.Proofs

open Sys2Proof.Machine

/-- Settles O47: a step that answers evaluates one operation (`exists_exec_of_step`), and what any operation answers is legal
(`outputsLegal_of_exec`), so the outputs before it are not needed. -/
theorem stepKeepsTheOutputsLegal : Obligations.StepKeepsTheOutputsLegal := by
  intro s t _ ht
  obtain ⟨_, _, i, -, -, hexec⟩ := exists_exec_of_step ht
  exact outputsLegal_of_exec hexec

/-- Settles O11: the result is a run of ones that fits the port. -/
theorem onesReturnsTheLowBitsSet : Obligations.OnesReturnsTheLowBitsSet := by
  refine fun length s h => ⟨_, exec_ones h s, toNat_ofNat_onesFn h, fun i hi => ?_⟩
  rw [getLsbD_ofNat64 _ hi, onesFn_testBit]

/-- Settles O13: the port carries the integer itself, and that is the highest set bit (`highestSetBit_word`). -/
theorem hsbReturnsTheHighestSetBit : Obligations.HsbReturnsTheHighestSetBit := by
  refine fun value s => ⟨_, exec_hsb value s, ?_⟩
  rw [toInt_ofInt_highestSetBit]
  exact highestSetBit_word value

/-- Settles O14 (`getLsbD_ofNat_replicateFn`). -/
theorem replicateTilesTheLowBits : Obligations.ReplicateTilesTheLowBits :=
  fun _ _ value s h => ⟨_, exec_replicate h value s, fun _ hi => getLsbD_ofNat_replicateFn h value hi⟩

/-- Settles O16 (`getLsbD_ofNat_rotateRightFn`). -/
theorem rorRotatesTheLowBits : Obligations.RorRotatesTheLowBits :=
  fun _ _ value s h => ⟨_, exec_ror h value s, fun _ hj => getLsbD_ofNat_rotateRightFn h value hj⟩

/-- Settles O18: both primitives mask (`rotateRightFn_zero`, `replicateFn_once`). -/
theorem rotateByZeroAndReplicateOnceMaskTheValue : Obligations.RotateByZeroAndReplicateOnceMaskTheValue := by
  intro v n s h1 h64
  have hror : Claims.rorDomain n.toNat (0 : Field6).toNat := ⟨h1, h64, h1⟩
  have hrep : Claims.replicateDomain n.toNat n.toNat := ⟨h1, Nat.le_refl _, h64, Nat.dvd_refl _⟩
  refine ⟨_, exec_ones h64 s, ?_, ?_⟩
  · rw [exec_ror hror, show (0 : Field6).toNat = 0 from rfl, rotateRightFn_zero h1, ofNat_toNat_and]
    rfl
  · rw [exec_replicate hrep, replicateFn_once ((replicateDomain_eq_true_iff _ _).2 hrep), ofNat_toNat_and]
    rfl

/-- Settles O19, one conjunct a law: `highestSetBit_onesFn`, `highestSetBit_one_shiftLeft`, and for a nonzero value the bit
that `highestSetBit_word` names. -/
theorem hsbAgreesWithOnesAndIsBitSet : Obligations.HsbAgreesWithOnesAndIsBitSet := by
  refine fun s => ⟨fun n hn => ⟨_, _, exec_ones hn s, exec_hsb _ s, ?_⟩, fun k hk => ?_, fun v hv => ?_⟩
  · rw [toInt_ofInt_highestSetBit, toNat_ofNat64 (onesFn_lt _) hn, highestSetBit_onesFn hn]
  · have hword : (1#64 <<< k).toNat = 1 <<< k := by
      rw [BitVec.toNat_shiftLeft, BitVec.toNat_ofNat, Nat.one_mod_two_pow (by decide), Nat.one_shiftLeft]
      exact Nat.mod_eq_of_lt (Nat.pow_lt_pow_right (by decide) hk)
    rw [exec_hsb, hword, highestSetBit_one_shiftLeft hk, BitVec.ofInt_natCast]
    rfl
  · obtain ⟨h0, -⟩ | ⟨k, hk, hindex, hset, habove⟩ := highestSetBit_word v
    · exact absurd h0 hv
    have hk6 : (BitVec.ofNat 6 k).toNat = k := Nat.mod_eq_of_lt hk
    refine ⟨BitVec.ofNat 6 k, ?_, ?_, fun j hj => ?_⟩
    · rw [exec_hsb, hindex, BitVec.ofInt_natCast, BitVec.setWidth_ofNat_of_le_of_lt (by decide) hk]
      rfl
    · rw [exec_isBitSet, hk6, if_pos hset]
      rfl
    · rw [hk6] at hj
      rw [exec_isBitSet, habove _ hj]
      rfl

/-- Settles O20: the two laws of `ROR` as a function (`rotateRightFn_rotateRightFn`, `rotateRightFn_onesFn`), with the first
result back on port `value` as it stood. -/
theorem rotationsComposeModuloTheWidth : Obligations.RotationsComposeModuloTheWidth := by
  intro w a b v s hw ha hb
  have hsum : (a.toNat + b.toNat) % w.toNat < w.toNat := Nat.mod_lt _ (Nat.zero_lt_of_lt ha)
  have hsum6 : (BitVec.ofNat 6 ((a.toNat + b.toNat) % w.toNat)).toNat = (a.toNat + b.toNat) % w.toNat :=
    Nat.mod_eq_of_lt (Nat.lt_of_lt_of_le hsum hw)
  have hdom : ∀ k : Field6, k.toNat < w.toNat → Claims.rorDomain w.toNat k.toNat :=
    fun k hk => ⟨Nat.zero_lt_of_lt hk, hw, hk⟩
  refine ⟨⟨_, exec_ror (hdom a ha) v s, ?_⟩, _, exec_ones hw s, ?_⟩
  · rw [exec_ror (hdom b hb), exec_ror (hdom _ (hsum6.trans_lt hsum)), toNat_ofNat64 (rotateRightFn_lt ha) hw,
      rotateRightFn_rotateRightFn ha hb, hsum6]
  · rw [exec_ror (hdom a ha), toNat_ofNat64 (onesFn_lt _) hw, rotateRightFn_onesFn ha]
    rfl

/-- Settles O21: `count_rotateRightFn`, on the words. -/
theorem rotationKeepsTheNumberOfSetBits : Obligations.RotationKeepsTheNumberOfSetBits := by
  intro w k v s h
  have ⟨_, hw, hk⟩ := h
  refine ⟨_, _, exec_ror h v s, exec_ones hw s, ?_⟩
  rw [popcount_ofNat (rotateRightFn_lt hk) hw, count_rotateRightFn hk, popcount_and_onesFn v hw]

/-- Settles O22: `count_replicateFn`, on the words. -/
theorem replicateMultipliesTheNumberOfSetBits : Obligations.ReplicateMultipliesTheNumberOfSetBits := by
  intro t e v s h
  have hdom := (replicateDomain_eq_true_iff _ _).2 h
  have ⟨_, hle, ht, _⟩ := h
  have he := Nat.le_trans hle ht
  refine ⟨_, _, exec_replicate h v s, exec_ones he s, ?_⟩
  rw [popcount_ofNat (replicateFn_lt hdom) ht, count_replicateFn hdom, popcount_and_onesFn v he]

/-- The six element sizes of O23: doubling stays on the port, and all three tilings are in their domain. -/
theorem tilings_in_domain : ∀ e : Field7, e ∈ ([1, 2, 4, 8, 16, 32] : List Field7) →
    (2 * e).toNat = 2 * e.toNat ∧ Claims.replicateDomain (2 * e).toNat e.toNat ∧
      Claims.replicateDomain (64 : Field7).toNat (2 * e).toNat ∧ Claims.replicateDomain (64 : Field7).toNat e.toNat := by
  decide

/-- Settles O23: `replicateFn_double`, with two copies back on port `value` as they stood, and `onesFn_and_onesFn`. -/
theorem tilingFromTwoCopiesIsTheSame : Obligations.TilingFromTwoCopiesIsTheSame := by
  refine fun v s => ⟨fun e he => ?_, fun a b ha hb => ⟨_, _, exec_ones ha s, exec_ones hb s, ?_⟩⟩
  · obtain ⟨hdouble, hpair, hfromPair, hfromOne⟩ := tilings_in_domain e he
    refine ⟨_, exec_replicate hpair v s, ?_⟩
    have hpair' := (replicateDomain_eq_true_iff _ _).2 hpair
    have hfromPair' := (replicateDomain_eq_true_iff _ _).2 hfromPair
    rw [exec_replicate hfromPair, exec_replicate hfromOne, toNat_ofNat64 (replicateFn_lt hpair') hpair.2.2.1]
    rw [hdouble] at hpair' hfromPair' ⊢
    rw [show (64 : Field7).toNat = 64 from rfl,
      replicateFn_double ((replicateDomain_eq_true_iff _ _).2 hfromOne) hpair' hfromPair']
  · have hmin : (if a.toNat ≤ b.toNat then a else b).toNat = min a.toNat b.toNat := by
      rw [apply_ite BitVec.toNat, Nat.min_def]
    rw [exec_ones (hmin.trans_le (min_le_of_left_le ha)), hmin, ← onesFn_and_onesFn, BitVec.ofNat_and]
    rfl

/-- Settles O10 (`exec_isBitSet`). -/
theorem isBitSetReturnsTheBit : Obligations.IsBitSetReturnsTheBit := exec_isBitSet

/-- Settles O12: 64 is in the domain, where the result fills the port, and no greater length is. -/
theorem onesAtAndBeyondTheEndOfItsDomain : Obligations.OnesAtAndBeyondTheEndOfItsDomain :=
  fun s => ⟨exec_ones (length := 64) (by decide) s, fun _ h => exec_ones_refused (Nat.not_le.2 h) s⟩

/-- Settles O15 (`exec_replicate_refused`). -/
theorem replicateOutsideItsDomainIsRefused : Obligations.ReplicateOutsideItsDomainIsRefused :=
  fun _ _ value s h => exec_replicate_refused h value s

/-- Settles O17 (`exec_ror_refused`). -/
theorem rorOutsideItsDomainIsRefused : Obligations.RorOutsideItsDomainIsRefused :=
  fun _ _ value s h => exec_ror_refused h value s

end Sys2Proof.Proofs
end

section
/-! The fields of a decoder request by the table of R92, and what they leave of `imms` and of the element. -/

namespace Sys2Proof.Machine

/-- The model's element length is the one of the table (R92). -/
theorem elementLength_eq_table (N : Bit) (imms : Field6) : elementLength N imms = Claims.length N imms := by
  rcases BitVec.eq_zero_or_eq_one N with rfl | rfl
  · exact (elementLength_zero imms).trans (if_neg (by decide)).symm
  · exact (elementLength_one imms).trans (if_pos rfl).symm

/-- The seven-bit value `N : NOT_6(imms)`, as a word for port `value` of `HSB` (R58(a)). -/
theorem toNat_thermometer_word (N : Bit) (imms : Field6) :
    ((N ++ ~~~imms).setWidth 64 : Word).toNat = thermometer N imms := by
  have hlt : (N ++ ~~~imms).toNat < 2 ^ 64 := (N ++ ~~~imms).isLt.trans (by decide)
  rw [BitVec.toNat_setWidth, Nat.mod_eq_of_lt hlt, BitVec.toNat_append, BitVec.toNat_not]
  rfl

/-- `HSB` of `N : NOT_6(imms)` answers the element length (R92). -/
theorem exec_hsb_thermometer (N : Bit) (imms : Field6) (s : State) :
    exec (.hsb ((N ++ ~~~imms).setWidth 64)) s = .next (s.respond (.index (BitVec.ofInt 7 (elementLength N imms)))) := by
  rw [exec_hsb, toNat_thermometer_word]
  rfl

/-- Elements tile 64 bits, and 32 bits when `N` is 0 (R92, R105). -/
theorem esize_dvd {N : Bit} {imms : Field6} (h : ¬Claims.causeA N imms) :
    Claims.esize N imms ∣ 64 ∧ (N = 0 → Claims.esize N imms ∣ 32) := by
  revert N imms
  decide

/-- The element size tells `N` (R92, first row). -/
theorem eq_one_iff_esize (N : Bit) (imms : Field6) : N = 1 ↔ Claims.esize N imms = 64 := by
  revert N imms
  decide

/-- The bits of `imms` above the run are the prefix of ones that stands for the element size (R92); with 64 the prefix is
empty. -/
theorem imms_eq_prefix_add_runLast {N : Bit} {imms : Field6} (h : ¬Claims.causeA N imms) :
    imms.toNat = 64 - 2 * Claims.esize N imms + Claims.runLast N imms := by
  revert N imms
  decide

/-- `N` and `imms` are determined by the element size and the end of the run. -/
theorem fields_eq_of_esize_of_runLast {N N' : Bit} {imms imms' : Field6} (h : ¬Claims.causeA N imms)
    (h' : ¬Claims.causeA N' imms') (he : Claims.esize N imms = Claims.esize N' imms')
    (hs : Claims.runLast N imms = Claims.runLast N' imms') : N = N' ∧ imms = imms' := by
  have hN : N = 1 ↔ N' = 1 := by rw [eq_one_iff_esize N imms, eq_one_iff_esize N' imms', he]
  have hbit : ∀ a b : Bit, (a = 1 ↔ b = 1) → a = b := by decide
  refine ⟨hbit N N' hN, BitVec.eq_of_toNat_eq ?_⟩
  rw [imms_eq_prefix_add_runLast h, imms_eq_prefix_add_runLast h', he, hs]

/-- The run fills the element exactly under cause (b) (R95). -/
theorem runLast_eq_iff_causeB {N : Bit} {imms : Field6} (h : ¬Claims.causeA N imms) :
    Claims.runLast N imms = Claims.esize N imms - 1 ↔ Claims.causeB N imms := by
  rw [runLast_eq_mod h, mod_eq_sub_one_iff_causeB h]

/-- Under neither cause the run leaves a position of the element clear (R95). -/
theorem runLast_succ_lt_esize {N : Bit} {imms : Field6} (hA : ¬Claims.causeA N imms) (hB : ¬Claims.causeB N imms) :
    Claims.runLast N imms + 1 < Claims.esize N imms := by
  have hlt := runLast_lt_esize hA
  have hne := mt (runLast_eq_iff_causeB hA).1 hB
  omega

end Sys2Proof.Machine
end

section
/-! Which requests the two decoder operations answer with a value, and with which. -/

namespace Sys2Proof.Machine

/-- Two responses that leave the same state are the same. -/
theorem response_eq_of_next_eq {s : State} {q r : Response}
    (h : (.next (s.respond q) : Host.Outcome State Fault Refusal) = .next (s.respond r)) : q = r := by
  injection h with hstate
  simpa using congrArg State.outputs hstate

/-- `DBM.M` answers a value only with an element size, and then the one of the listing (R93, R104). -/
theorem eq_maskValue_of_exec_dbmM {N : Bit} {imms immr : Field6} {s : State} {w : Word}
    (hw : exec (.dbmM N imms immr) s = .next (s.respond (.wmask w))) :
    ¬Claims.causeA N imms ∧ w = maskValue N imms immr := by
  by_cases hA : Claims.causeA N imms
  · rw [exec_dbmM_of_causeA hA] at hw
    cases response_eq_of_next_eq hw
  · rw [exec_dbmM_of_not_causeA hA] at hw
    cases response_eq_of_next_eq hw
    exact ⟨hA, rfl⟩

/-- `DBM.L` answers a value only under neither cause, and then the one of the listing (R93, R95, R103). -/
theorem eq_maskValue_of_exec_dbmL {N : Bit} {imms immr : Field6} {s : State} {w : Word}
    (hw : exec (.dbmL N imms immr) s = .next (s.respond (.wmask w))) :
    ¬Claims.causeA N imms ∧ ¬Claims.causeB N imms ∧ w = maskValue N imms immr := by
  by_cases hcause : Claims.causeA N imms ∨ Claims.causeB N imms
  · rw [exec_dbmL_of_cause hcause] at hw
    cases response_eq_of_next_eq hw
  · obtain ⟨hA, hB⟩ := not_or.1 hcause
    rw [exec_dbmL_of_no_cause hA hB] at hw
    cases response_eq_of_next_eq hw
    exact ⟨hA, hB, rfl⟩

end Sys2Proof.Machine
end

section
/-! A run of ones rotated inside an element of `e` bits: position `i` is set exactly when `(i + r) % e <= s` (R106). Where the
run leaves a position clear, the pattern determines `e`, `r` and `s`, because the positions where it goes from clear to set
are those before a multiple of `e` less `r` (R108(e)). -/

namespace Sys2Proof.Machine

/-- A rotation brings some position of the element to each place in it. -/
theorem exists_add_mod_eq {e r k : Nat} (hr : r < e) (hk : k < e) : ∃ i, (i + r) % e = k := by
  obtain ⟨i, -, hi⟩ := exists_add_mod_eq_zero hr
  refine ⟨i + k, ?_⟩
  rw [Nat.add_right_comm, Nat.add_mod, hi, Nat.zero_add, Nat.mod_mod, Nat.mod_eq_of_lt hk]

/-- The pattern goes from clear to set exactly where the element begins again. -/
theorem run_rises_iff {e s : Nat} (hs : s + 1 < e) (n : Nat) : (¬n % e ≤ s ∧ (n + 1) % e ≤ s) ↔ e ∣ n + 1 := by
  have hn : n % e < e := Nat.mod_lt _ (by omega)
  rw [Nat.dvd_iff_mod_eq_zero, ← Nat.mod_add_mod n e 1]
  by_cases hlast : n % e + 1 = e
  · rw [hlast, Nat.mod_self]
    omega
  · rw [Nat.mod_eq_of_lt (a := n % e + 1) (by omega)]
    omega

/-- Of two progressions, one inside the other, the outer step divides the inner. -/
theorem dvd_of_progression {e r e' r' : Nat} (hr : r < e) (h : ∀ i, e ∣ i + r + 1 → e' ∣ i + r' + 1) : e' ∣ e := by
  have hsum : e - 1 - r + r + 1 = e := by omega
  have hfirst := h (e - 1 - r) ⟨1, by omega⟩
  have hsecond := h (e - 1 - r + e) (by rw [Nat.add_right_comm _ e, Nat.add_right_comm _ e, hsum]; exact ⟨2, by omega⟩)
  rw [Nat.add_right_comm _ e, Nat.add_right_comm _ e] at hsecond
  exact (Nat.dvd_add_right hfirst).1 hsecond

/-- A progression determines its step and its offset below the step. -/
theorem eq_of_progression {e r e' r' : Nat} (hr : r < e) (hr' : r' < e')
    (h : ∀ i, e ∣ i + r + 1 ↔ e' ∣ i + r' + 1) : e = e' ∧ r = r' := by
  obtain rfl : e = e' :=
    Nat.dvd_antisymm (dvd_of_progression hr' fun i => (h i).2) (dvd_of_progression hr fun i => (h i).1)
  have hdvd : e ∣ e - 1 - r + r' + 1 := (h _).1 ⟨1, by omega⟩
  have := Nat.eq_of_dvd_of_lt_two_mul (by omega) hdvd (by omega)
  exact ⟨rfl, by omega⟩

/-- A pattern with clear positions determines the element size, the rotation and the end of the run (R108(e)). -/
theorem run_determines {e r s e' r' s' : Nat} (hr : r < e) (hs : s + 1 < e) (hr' : r' < e') (hs' : s' + 1 < e')
    (h : ∀ i, (i + r) % e ≤ s ↔ (i + r') % e' ≤ s') : e = e' ∧ r = r' ∧ s = s' := by
  obtain ⟨rfl, rfl⟩ : e = e' ∧ r = r' := eq_of_progression hr hr' fun i => by
    have hnext := h (i + 1)
    rw [Nat.add_right_comm, Nat.add_right_comm i 1 r'] at hnext
    rw [← run_rises_iff hs, ← run_rises_iff hs', h i, hnext]
  obtain ⟨i, hi⟩ := exists_add_mod_eq hr (Nat.lt_of_succ_lt hs)
  obtain ⟨j, hj⟩ := exists_add_mod_eq hr (Nat.lt_of_succ_lt hs')
  exact ⟨rfl, rfl, Nat.le_antisymm (hi ▸ (h i).1 hi.le) (hj ▸ (h j).2 hj.le)⟩

end Sys2Proof.Machine
end

section
/-! The value of the decoder: how it is built from the primitives, and the laws of R108. -/

namespace Sys2Proof.Machine

/-- The value through the primitives, with `s`, `r` and `esize` by the tables (R97 to R100). -/
theorem maskValue_eq_replicate {N : Bit} {imms : Field6} (h : ¬Claims.causeA N imms) (immr : Field6) :
    maskValue N imms immr = BitVec.ofNat 64 (replicateFn (rotateRightFn (onesFn (Claims.runLast N imms + 1))
      (Claims.rotation N imms immr) (Claims.esize N imms)) (Claims.esize N imms) 64) := by
  rw [Claims.runLast, Claims.rotation, esize_eq_two_pow h, maskValue, expandElement, Nat.one_shiftLeft]
  rfl

/-- An element tiles the 64 bits inside the domain of `REPLICATE` (R78, R100). -/
theorem replicateDomain_esize {N : Bit} {imms : Field6} (h : ¬Claims.causeA N imms) :
    Claims.replicateDomain 64 (Claims.esize N imms) :=
  ⟨(esize_range h).1, (esize_range h).2, Nat.le_refl _, (esize_dvd h).1⟩

/-- The value as a pattern over all positions: bit `i mod 64` (R106). -/
theorem getLsbD_maskValue_mod {N : Bit} {imms : Field6} (h : ¬Claims.causeA N imms) (immr : Field6) (i : Nat) :
    (maskValue N imms immr).getLsbD (i % 64) = true ↔
      (i + Claims.rotation N imms immr) % Claims.esize N imms ≤ Claims.runLast N imms := by
  rw [getLsbD_maskValue h immr (Nat.mod_lt _ (by decide)), Nat.mod_mod_of_dvd _ (esize_dvd h).1, Nat.mod_add_mod,
    decide_eq_true_iff]

/-- The value is all ones exactly when the run fills the element (R108(b)): otherwise the position that the rotation brings to
the top of the element is clear. -/
theorem maskValue_eq_allOnes_iff {N : Bit} {imms : Field6} (h : ¬Claims.causeA N imms) (immr : Field6) :
    maskValue N imms immr = BitVec.allOnes 64 ↔ Claims.runLast N imms = Claims.esize N imms - 1 := by
  have hpos := (esize_range h).1
  have hlast := runLast_lt_esize h
  constructor
  · intro hw
    obtain ⟨i, hi⟩ := exists_add_mod_eq (rotation_lt_esize h immr) (Nat.sub_one_lt_of_lt hpos)
    have hset : (maskValue N imms immr).getLsbD (i % 64) = true := by
      rw [hw, BitVec.getLsbD_allOnes, decide_eq_true (Nat.mod_lt i (by decide))]
    have htop := (getLsbD_maskValue_mod h immr i).1 hset
    omega
  · intro hs
    refine BitVec.eq_of_getLsbD_eq fun i hi => ?_
    have hin := Nat.mod_lt (i + Claims.rotation N imms immr) hpos
    rw [BitVec.getLsbD_allOnes, decide_eq_true hi, ← Nat.mod_eq_of_lt hi, getLsbD_maskValue_mod h]
    omega

/-- The value does not depend on the bits of `immr` above the rotation (R96, R108(d)). -/
theorem maskValue_eq_of_rotation_eq {N : Bit} {imms immr immr' : Field6} (h : ¬Claims.causeA N imms)
    (hr : Claims.rotation N imms immr = Claims.rotation N imms immr') :
    maskValue N imms immr = maskValue N imms immr' := by
  rw [maskValue_eq_replicate h, maskValue_eq_replicate h, hr]

/-- The value repeats with the element (R108(c)). -/
theorem maskValue_periodic {N : Bit} {imms : Field6} (h : ¬Claims.causeA N imms) (immr : Field6) {i : Nat} (hi : i < 64) :
    (maskValue N imms immr).getLsbD i = (maskValue N imms immr).getLsbD (i % Claims.esize N imms) := by
  rw [getLsbD_maskValue h immr hi, getLsbD_maskValue h immr (Nat.mod_lt_of_lt hi), Nat.mod_mod]

/-- With `N = 0` the halves of the value are equal (R105): an element divides 32 bits. -/
theorem maskValue_halves_eq {imms : Field6} (h : ¬Claims.causeA 0 imms) (immr : Field6) :
    (maskValue 0 imms immr).extractLsb' 32 32 = (maskValue 0 imms immr).extractLsb' 0 32 := by
  refine BitVec.eq_of_getLsbD_eq fun i hi => ?_
  have hmod : (32 + i) % Claims.esize 0 imms = i % Claims.esize 0 imms := by
    rw [Nat.add_mod, Nat.mod_eq_zero_of_dvd ((esize_dvd h).2 rfl), Nat.zero_add, Nat.mod_mod]
  simp only [BitVec.getLsbD_extractLsb', hi, decide_true, Bool.true_and, Nat.zero_add]
  rw [maskValue_periodic h immr (by omega), hmod, ← maskValue_periodic h immr (by omega)]

/-- The number of set bits of the value (R108(a)), by the counting laws of R83. -/
theorem popcount_maskValue {N : Bit} {imms : Field6} (h : ¬Claims.causeA N imms) (immr : Field6) :
    Claims.popcount (maskValue N imms immr) = (Claims.runLast N imms + 1) * (64 / Claims.esize N imms) := by
  have hdom := (replicateDomain_eq_true_iff _ _).2 (replicateDomain_esize h)
  have hrot := rotation_lt_esize h immr
  have hrun : Claims.runLast N imms + 1 ≤ Claims.esize N imms := runLast_lt_esize h
  have hfits := rotateRightFn_lt (v := onesFn (Claims.runLast N imms + 1)) hrot
  have hones : Nat.count (fun i => (onesFn (Claims.runLast N imms + 1)).testBit i = true) (Claims.runLast N imms + 1) =
      Claims.runLast N imms + 1 := Nat.count_iff_forall.2 fun i hi => by simpa using hi
  rw [maskValue_eq_replicate h, popcount_ofNat (replicateFn_lt hdom) (Nat.le_refl 64), count_replicateFn hdom, and_onesFn,
    Nat.mod_eq_of_lt hfits, count_rotateRightFn hrot, onesFn_and_onesFn, Nat.min_eq_left hrun,
    count_testBit_of_lt (onesFn_lt _) hrun, hones, Nat.mul_comm]

/-- Under neither cause the value determines `N`, `imms` and the rotation (R108(e)). -/
theorem fields_eq_of_maskValue_eq {N N' : Bit} {imms immr imms' immr' : Field6} (hA : ¬Claims.causeA N imms)
    (hB : ¬Claims.causeB N imms) (hA' : ¬Claims.causeA N' imms') (hB' : ¬Claims.causeB N' imms')
    (hw : maskValue N imms immr = maskValue N' imms' immr') :
    N = N' ∧ imms = imms' ∧ Claims.rotation N imms immr = Claims.rotation N' imms' immr' := by
  obtain ⟨he, hr, hs⟩ := run_determines (rotation_lt_esize hA immr) (runLast_succ_lt_esize hA hB)
    (rotation_lt_esize hA' immr') (runLast_succ_lt_esize hA' hB') fun i => by
      rw [← getLsbD_maskValue_mod hA, ← getLsbD_maskValue_mod hA', hw]
  obtain ⟨hN, himms⟩ := fields_eq_of_esize_of_runLast hA hA' he hs
  exact ⟨hN, himms, hr⟩

end Sys2Proof.Machine
end

section
/-! The caller's way to the value through the separate operations: each operand of the listing R102 as it stands on its port. -/

namespace Sys2Proof.Machine

/-- The element length on port `index`, read as the operand `length` of `ONES`. -/
theorem toNat_ofInt_elementLength {N : Bit} {imms : Field6} (h : ¬Claims.causeA N imms) :
    (BitVec.ofInt 7 (elementLength N imms)).toNat = (elementLength N imms).toNat := by
  have hrange := elementLength_toNat_range h
  rw [BitVec.toNat_ofInt]
  omega

/-- An element size is at most 64, so it stands on a seven-bit port unchanged (R97). -/
theorem toNat_ofNat_esize {N : Bit} {imms : Field6} (h : ¬Claims.causeA N imms) :
    (BitVec.ofNat 7 (Claims.esize N imms)).toNat = Claims.esize N imms :=
  Nat.mod_eq_of_lt ((esize_range h).2.trans_lt (by decide))

/-- `levels` on port `q`: what `ONES` answers for the element length (`exec_ones_elementLength`, R94). -/
def levelsWord (N : Bit) (imms : Field6) : Word := BitVec.ofNat 64 (onesFn (elementLength N imms).toNat)

/-- `ONES` of the index that `HSB` answered (R94). -/
theorem exec_ones_elementLength {N : Bit} {imms : Field6} (h : ¬Claims.causeA N imms) (s : State) :
    exec (.ones (BitVec.ofInt 7 (elementLength N imms))) s = .next (s.respond (.word (levelsWord N imms))) := by
  have hlen := toNat_ofInt_elementLength h
  have h6 := (elementLength_toNat_range h).2
  rw [exec_ones (by omega), hlen, levelsWord]

/-- A six-bit field under `levels` is the field modulo the element size (R96). -/
theorem toNat_and_levelsWord {N : Bit} {imms : Field6} (h : ¬Claims.causeA N imms) (x : Field6) :
    (x.setWidth 64 &&& levelsWord N imms).toNat = x.toNat % Claims.esize N imms := by
  have h6 := (elementLength_toNat_range h).2
  rw [levelsWord, BitVec.toNat_and, toNat_ofNat64 (onesFn_lt _) (by omega), and_onesFn, ← esize_eq_two_pow h,
    BitVec.toNat_setWidth_of_le (by decide)]

/-- `ONES` of `s + 1` answers the run (R98). -/
theorem exec_ones_runLength {N : Bit} {imms : Field6} (h : ¬Claims.causeA N imms) (s : State) :
    exec (.ones ((imms.setWidth 64 &&& levelsWord N imms).setWidth 7 + 1)) s =
      .next (s.respond (.word (BitVec.ofNat 64 (onesFn (Claims.runLast N imms + 1))))) := by
  have hlast := runLast_lt_esize h
  have h64 := (esize_range h).2
  have hlength : ((imms.setWidth 64 &&& levelsWord N imms).setWidth 7 + 1).toNat = Claims.runLast N imms + 1 := by
    rw [BitVec.toNat_add, BitVec.toNat_setWidth, toNat_and_levelsWord h, ← runLast_eq_mod h,
      show (1 : Field7).toNat = 1 from rfl]
    omega
  rw [exec_ones (by omega), hlength]

/-- `ROR` of a run that fits the element answers the run rotated (R99). -/
theorem exec_ror_rotation {N : Bit} {imms : Field6} (h : ¬Claims.causeA N imms) (immr : Field6) {run : Nat}
    (hrun : run < 2 ^ Claims.esize N imms) (s : State) :
    exec (.ror (BitVec.ofNat 7 (Claims.esize N imms)) ((immr.setWidth 64 &&& levelsWord N imms).setWidth 6)
      (BitVec.ofNat 64 run)) s = .next (s.respond (.word (BitVec.ofNat 64
        (rotateRightFn run (Claims.rotation N imms immr) (Claims.esize N imms))))) := by
  have hrot := rotation_lt_esize h immr
  obtain ⟨hpos, h64⟩ := esize_range h
  have hsize := toNat_ofNat_esize h
  have hshift : ((immr.setWidth 64 &&& levelsWord N imms).setWidth 6).toNat = Claims.rotation N imms immr := by
    rw [BitVec.toNat_setWidth, toNat_and_levelsWord h, ← rotation_eq_mod h]
    omega
  rw [exec_ror (by rw [hsize, hshift]; exact ⟨hpos, h64, hrot⟩), hsize, hshift, toNat_ofNat64 hrun h64]

/-- `REPLICATE` of the rotated run to 64 bits answers the value (R100). -/
theorem exec_replicate_element {N : Bit} {imms : Field6} (h : ¬Claims.causeA N imms) (immr : Field6) (s : State) :
    exec (.replicate 64 (BitVec.ofNat 7 (Claims.esize N imms)) (BitVec.ofNat 64
      (rotateRightFn (onesFn (Claims.runLast N imms + 1)) (Claims.rotation N imms immr) (Claims.esize N imms)))) s =
      .next (s.respond (.word (maskValue N imms immr))) := by
  have hsize := toNat_ofNat_esize h
  have hfits := rotateRightFn_lt (v := onesFn (Claims.runLast N imms + 1)) (rotation_lt_esize h immr)
  rw [exec_replicate (by rw [hsize]; exact replicateDomain_esize h), maskValue_eq_replicate h, hsize,
    toNat_ofNat64 hfits (esize_range h).2]
  rfl

end Sys2Proof.Machine
end

section
/-! The statements about the decoder (41_decode_bitmasks.md). -/

namespace Sys2Proof.Proofs

open Sys2Proof.Machine

/-- Settles O25: both operations are Undefined under cause (a), which is `length < 1` (`elementLength_lt_one_iff`). -/
theorem noElementSizeIsUndefined : Obligations.NoElementSizeIsUndefined := by
  intro N imms immr s
  refine ⟨elementLength_lt_one_iff N imms, fun hlt => ?_⟩
  have hA := (elementLength_lt_one_iff N imms).1 hlt
  exact ⟨exec_dbmL_of_cause (.inl hA) immr s, exec_dbmM_of_causeA hA immr s⟩

/-- Settles O26: cause (b) is the run that fills its element (`runLast_eq_iff_causeB`), and then the value is all ones
(`maskValue_eq_allOnes_iff`). -/
theorem allOnesRunIsRejectedInLogicalContextOnly : Obligations.AllOnesRunIsRejectedInLogicalContextOnly := by
  intro N imms immr s hA
  have hfull := runLast_eq_iff_causeB hA
  have hM := exec_dbmM_of_not_causeA hA immr s
  refine ⟨hfull, fun hB => ⟨exec_dbmL_of_cause (.inr hB) immr s, ?_⟩,
    fun hB => ⟨_, exec_dbmL_of_no_cause hA hB immr s⟩, _, hM⟩
  rw [hM, (maskValue_eq_allOnes_iff hA immr).2 (hfull.2 hB)]
  rfl

/-- Settles O27 (`getLsbD_maskValue`). -/
theorem decoderResultHasTheClosedForm : Obligations.DecoderResultHasTheClosedForm :=
  fun _ _ immr s hA => ⟨_, exec_dbmM_of_not_causeA hA immr s, fun hB => exec_dbmL_of_no_cause hA hB immr s,
    fun _ hi => getLsbD_maskValue hA immr hi⟩

/-- Settles O28: a value of `DBM.L` is the one of the listing, under no cause (`eq_maskValue_of_exec_dbmL`). -/
theorem dbmMAgreesWhereDbmLHasAValue : Obligations.DbmMAgreesWhereDbmLHasAValue := by
  intro N imms immr s w hL
  obtain ⟨hA, -, rfl⟩ := eq_maskValue_of_exec_dbmL hL
  exact exec_dbmM_of_not_causeA hA immr s

/-- Settles O29: the causes do not look at `immr`, and the value looks at the rotation alone
(`maskValue_eq_of_rotation_eq`). -/
theorem upperBitsOfImmrAreIgnored : Obligations.UpperBitsOfImmrAreIgnored := by
  intro N imms immr immr' s hr
  have hdecode : ∀ L, decodeBitMasks N imms immr L = decodeBitMasks N imms immr' L := fun L => by
    by_cases hA : Claims.causeA N imms
    · rw [decodeBitMasks_of_causeA hA, decodeBitMasks_of_causeA hA]
    · rw [decodeBitMasks_eq hA, decodeBitMasks_eq hA, maskValue_eq_of_rotation_eq hA hr]
  rw [exec_dbmL, exec_dbmL, exec_dbmM, exec_dbmM, hdecode, hdecode]
  exact ⟨rfl, rfl⟩

/-- Settles O30: both values are those of the listing under no cause, where the value determines the fields
(`fields_eq_of_maskValue_eq`, from `run_determines`). -/
theorem dbmLValueDeterminesTheFields : Obligations.DbmLValueDeterminesTheFields := by
  intro N N' imms immr imms' immr' s w hw hw'
  obtain ⟨hA, hB, rfl⟩ := eq_maskValue_of_exec_dbmL hw
  obtain ⟨hA', hB', heq⟩ := eq_maskValue_of_exec_dbmL hw'
  exact fields_eq_of_maskValue_eq hA hB hA' hB' heq

/-- Settles O31 (`popcount_maskValue`). -/
theorem wmaskPopcountIsRunLengthTimesElements : Obligations.WmaskPopcountIsRunLengthTimesElements :=
  fun _ _ immr s hA => ⟨_, exec_dbmM_of_not_causeA hA immr s, popcount_maskValue hA immr⟩

/-- Settles O32: `maskValue_ne_zero` and `maskValue_eq_allOnes_iff`; a full run is cause (b), which `DBM.L` rejects. -/
theorem wmaskIsNeverZeroAndAllOnesOnlyForAFullRun : Obligations.WmaskIsNeverZeroAndAllOnesOnlyForAFullRun := by
  refine fun N imms immr s w => ⟨fun hM => ?_, fun hL => ?_⟩
  · obtain ⟨hA, rfl⟩ := eq_maskValue_of_exec_dbmM hM
    exact ⟨maskValue_ne_zero hA immr, maskValue_eq_allOnes_iff hA immr⟩
  · obtain ⟨hA, hB, rfl⟩ := eq_maskValue_of_exec_dbmL hL
    refine ⟨maskValue_ne_zero hA immr, fun hones => hB ?_⟩
    exact (runLast_eq_iff_causeB hA).1 ((maskValue_eq_allOnes_iff hA immr).1 hones)

/-- Settles O33 (`maskValue_periodic`, `maskValue_halves_eq`). -/
theorem wmaskIsPeriodicInTheElement : Obligations.WmaskIsPeriodicInTheElement := by
  intro N imms immr s w hM
  obtain ⟨hA, rfl⟩ := eq_maskValue_of_exec_dbmM hM
  refine ⟨fun i hi => maskValue_periodic hA immr hi, ?_⟩
  rintro rfl
  exact maskValue_halves_eq hA immr

/-- Settles O34, one lemma a step of the listing: `exec_hsb_thermometer`, `exec_ones_elementLength`, `exec_ones_runLength`,
`exec_ror_rotation`, `exec_replicate_element`. -/
theorem primitivesRebuildTheDecoder : Obligations.PrimitivesRebuildTheDecoder := by
  intro N imms immr s hA
  have hsize : (BitVec.ofNat 7 (Claims.esize N imms)).toNat = 2 ^ (BitVec.ofInt 7 (elementLength N imms)).toNat := by
    rw [toNat_ofNat_esize hA, toNat_ofInt_elementLength hA, esize_eq_two_pow hA]
  have hrun : onesFn (Claims.runLast N imms + 1) < 2 ^ Claims.esize N imms :=
    (onesFn_lt _).trans_le (Nat.pow_le_pow_right (by decide) (runLast_lt_esize hA))
  exact ⟨_, _, _, _, _, _, exec_hsb_thermometer N imms s, exec_ones_elementLength hA s, hsize, exec_ones_runLength hA s,
    exec_ror_rotation hA immr hrun s, exec_replicate_element hA immr s, exec_dbmM_of_not_causeA hA immr s⟩

/-- Settles O24: `elementLength_eq_table`, and the operand of `HSB` is `N : NOT_6(imms)` as a number
(`exec_hsb_thermometer`). -/
theorem elementLengthFollowsTheTable : Obligations.ElementLengthFollowsTheTable := by
  intro N imms s
  refine ⟨elementLength_eq_table N imms, _, exec_hsb_thermometer N imms s, ?_⟩
  rw [← elementLength_eq_table, elementLength, ← toNat_thermometer_word, toInt_ofInt_highestSetBit]

end Sys2Proof.Proofs
end

section
/-! The predicate step by step (R111 to R116), for either value of the parameter. -/

namespace Sys2Proof.Machine

/-- Step 2 answers false (R112). -/
theorem moveWidePreferred_of_ne (rhs : MovnRhs) {sf immN : Bit} (h : immN ≠ sf) (imms immr : Field6) :
    moveWidePreferred rhs sf immN imms immr = false := if_pos h

/-- Step 3 (R113). -/
theorem moveWidePreferred_of_lt (rhs : MovnRhs) (sf : Bit) {imms : Field6} (h : imms.toNat < 16) (immr : Field6) :
    moveWidePreferred rhs sf sf imms immr = decide ((-(immr.toNat : Int)) % 16 ≤ 15 - imms.toNat) := by
  simp [moveWidePreferred, show (imms.toNat : Int) < 16 by omega]

/-- Step 4 (R114). -/
theorem moveWidePreferred_of_ge (rhs : MovnRhs) {sf : Bit} {imms : Field6} (h : 16 ≤ imms.toNat)
    (hw : selectedWidth sf - 15 ≤ imms.toNat) (immr : Field6) :
    moveWidePreferred rhs sf sf imms immr =
      decide ((immr.toNat : Int) % 16 ≤ movnBound rhs (selectedWidth sf) imms.toNat) := by
  simp [moveWidePreferred, show ¬(imms.toNat : Int) < 16 by omega,
    show (selectedWidth sf : Int) ≤ imms.toNat + 15 by omega]

/-- Step 5 answers false (R115). -/
theorem moveWidePreferred_of_between (rhs : MovnRhs) {sf : Bit} {imms : Field6} (h : 16 ≤ imms.toNat)
    (hw : imms.toNat < selectedWidth sf - 15) (immr : Field6) : moveWidePreferred rhs sf sf imms immr = false := by
  simp [moveWidePreferred, show ¬(imms.toNat : Int) < 16 by omega,
    show ¬(selectedWidth sf : Int) ≤ imms.toNat + 15 by omega]

end Sys2Proof.Machine
end

section
/-! The tests of steps 3 and 4 in the terms of the truth tables (R118, R119). -/

namespace Sys2Proof.Machine

/-- The MOVZ test of step 3 on natural numbers (R113): the modulus is the floored one. -/
theorem movz_test_iff (imms immr : Field6) :
    (-(immr.toNat : Int)) % 16 ≤ 15 - imms.toNat ↔ (16 - immr.toNat % 16) % 16 + imms.toNat ≤ 15 := by omega

/-- The MOVN test with the other value of the parameter (R119), by the two widths. -/
theorem movn_symmetric_iff (sf : Bit) (imms immr : Field6) :
    (16 ≤ imms.toNat ∧ selectedWidth sf ≤ imms.toNat + 15 ∧
      (immr.toNat : Int) % 16 ≤ movnBound .symmetric (selectedWidth sf) imms.toNat) ↔
    (sf = 1 ∧ 49 ≤ imms.toNat ∧ immr.toNat % 16 + 49 ≤ imms.toNat) ∨
    (sf = 0 ∧ ((17 ≤ imms.toNat ∧ imms.toNat ≤ 31 ∧ immr.toNat % 16 + 17 ≤ imms.toNat) ∨ 32 ≤ imms.toNat)) := by
  obtain rfl | rfl : sf = 0 ∨ sf = 1 := BitVec.eq_zero_or_eq_one sf
  · have hne : ¬((0 : Bit) = 1) := by decide
    simp only [selectedWidth_zero, movnBound, hne, false_and, false_or, true_and]
    omega
  · have hne : ¬((1 : Bit) = 0) := by decide
    simp only [selectedWidth_one, movnBound, hne, false_and, or_false, true_and]
    omega

end Sys2Proof.Machine
end

section
/-! The meaning of step 3 (R121): the run of the decoded value stays inside one halfword. -/

namespace Sys2Proof.Machine

/-- A run of `s + 1` positions, rotated right by `r` in an element of `e` bits, lies inside one halfword exactly when it
does not cross the halfword of its start `(e - r) % e`. -/
theorem run_in_one_halfword_iff {e r s : Nat} (he : e = 32 ∨ e = 64) (hr : r < e) (hs : s < 16) :
    (∃ h, ∀ i, i < e → (i + r) % e ≤ s → i / 16 = h) ↔ (16 - r % 16) % 16 + s ≤ 15 := by
  constructor
  · -- the two ends of the run are set, so they share a halfword
    rintro ⟨h, hin⟩
    have hfirst := hin ((e - r) % e)
    have hlast := hin ((e - r + s) % e)
    rcases he with rfl | rfl <;> omega
  · -- the run does not wrap, so every set bit shares the halfword of the start
    intro hfits
    refine ⟨(e - r) % e / 16, fun i hi hset => ?_⟩
    rcases he with rfl | rfl <;> omega

/-- With `imms` below 16 and `N = sf` the element is as wide as the result, under neither cause, and the run is `imms`
long (R92, R96, R121). -/
theorem fields_of_imms_lt_16 (sf : Bit) {imms : Field6} (h : imms.toNat < 16) :
    ¬Claims.causeA sf imms ∧ ¬Claims.causeB sf imms ∧ Claims.esize sf imms = Claims.width sf ∧
      Claims.runLast sf imms = imms.toNat := by
  revert sf imms
  decide

theorem width_eq_32_or_64 (sf : Bit) : Claims.width sf = 32 ∨ Claims.width sf = 64 := by
  revert sf
  decide

/-- The set bits of the value of such a request lie inside one halfword exactly when the MOVZ test holds (R121). -/
theorem maskValue_in_one_halfword_iff (sf : Bit) {imms : Field6} (h : imms.toNat < 16) (immr : Field6) :
    (∃ k, ∀ i, i < Claims.width sf → (maskValue sf imms immr).getLsbD i = true → i / 16 = k) ↔
      (16 - immr.toNat % 16) % 16 + imms.toNat ≤ 15 := by
  obtain ⟨hA, -, hsize, hrun⟩ := fields_of_imms_lt_16 sf h
  have hwidth := width_eq_32_or_64 sf
  have hrot : Claims.rotation sf imms immr = immr.toNat % Claims.width sf := by rw [rotation_eq_mod hA, hsize]
  have hmod : immr.toNat % Claims.width sf % 16 = immr.toNat % 16 :=
    Nat.mod_mod_of_dvd _ (by rcases hwidth with hw | hw <;> rw [hw] <;> decide)
  have hbit : ∀ i, i < Claims.width sf → ((maskValue sf imms immr).getLsbD i = true ↔
      (i + immr.toNat % Claims.width sf) % Claims.width sf ≤ imms.toNat) := fun i hi => by
    rw [getLsbD_maskValue hA immr (by omega), hsize, hrun, hrot, Nat.mod_eq_of_lt hi, decide_eq_true_iff]
  rw [← hmod, ← run_in_one_halfword_iff hwidth (Nat.mod_lt _ (by omega)) h]
  exact exists_congr fun k => forall₂_congr fun i hi => by rw [hbit i hi]

end Sys2Proof.Machine
end

section
/-! The statements about the predicate (42_move_wide_preferred.md). -/

namespace Sys2Proof.Proofs

open Sys2Proof.Machine

/-- Settles O36 (`moveWidePreferred_verbatim_iff`). -/
theorem moveWidePreferredTruthTable : Obligations.MoveWidePreferredTruthTable :=
  fun sf immN imms immr s => ⟨_, exec_mwp sf immN imms immr s, moveWidePreferred_verbatim_iff sf immN imms immr⟩

/-- Settles O37: the predicate is step 3 or step 4 (`moveWidePreferred_eq_true_iff`), read by `movz_test_iff` and
`movn_symmetric_iff`. -/
theorem symmetricParameterTruthTable : Obligations.SymmetricParameterTruthTable := by
  intro sf immN imms immr
  rw [moveWidePreferred_eq_true_iff, movz_test_iff, movn_symmetric_iff]
  constructor
  · rintro ⟨rfl, hz | ⟨rfl, hn⟩ | ⟨rfl, hn | hn⟩⟩
    · exact .inl ⟨rfl, hz⟩
    · exact .inr (.inl ⟨rfl, rfl, hn⟩)
    · exact .inr (.inr (.inl ⟨rfl, rfl, hn⟩))
    · exact .inr (.inr (.inr ⟨rfl, rfl, hn⟩))
  · rintro (⟨rfl, hz⟩ | ⟨rfl, rfl, hn⟩ | ⟨rfl, rfl, hn⟩ | ⟨rfl, rfl, hn⟩)
    · exact ⟨rfl, .inl hz⟩
    · exact ⟨rfl, .inr (.inl ⟨rfl, hn⟩)⟩
    · exact ⟨rfl, .inr (.inr ⟨rfl, .inl hn⟩)⟩
    · exact ⟨rfl, .inr (.inr ⟨rfl, .inr hn⟩)⟩

/-- Settles O39: `DBM.L` answers the value of the listing, whose run stays inside one halfword exactly when the MOVZ test
holds (`maskValue_in_one_halfword_iff`), and that test is the predicate here (`moveWidePreferred_of_lt`). -/
theorem movzTestMeansOneHalfword : Obligations.MovzTestMeansOneHalfword := by
  intro sf imms immr s h
  obtain ⟨hA, hB, -, -⟩ := fields_of_imms_lt_16 sf h
  refine ⟨_, _, exec_dbmL_of_no_cause hA hB immr s, exec_mwp sf sf imms immr s, ?_⟩
  rw [moveWidePreferred_of_lt _ sf h, decide_eq_true_iff, movz_test_iff, maskValue_in_one_halfword_iff sf h]

/-- Settles O35, one clause a step. -/
theorem moveWidePreferredStepByStep : Obligations.MoveWidePreferredStepByStep := by
  intro sf immN imms immr s
  refine ⟨fun hne => ?_, ?_, ?_, ?_⟩
  · rw [exec_mwp, moveWidePreferred_of_ne _ hne]
    rfl
  · rintro rfl hlt
    rw [exec_mwp, moveWidePreferred_of_lt _ _ hlt]
    rfl
  · rintro rfl h16 hw
    refine ⟨?_, moveWidePreferred_of_ge .symmetric h16 hw immr⟩
    rw [exec_mwp, moveWidePreferred_of_ge _ h16 hw]
    rfl
  · rintro rfl h16 hw
    rw [exec_mwp, moveWidePreferred_of_between _ h16 hw]
    rfl

/-- Settles O38: the last row of R118 is cause (a) for the decoder (R120). -/
theorem preferredDoesNotImplyDefined : Obligations.PreferredDoesNotImplyDefined := by
  intro immr s
  have hA : Claims.causeA 0 63 := by decide
  refine ⟨?_, exec_dbmL_of_cause (.inl hA) immr s, exec_dbmM_of_causeA hA immr s⟩
  rw [exec_mwp, (moveWidePreferred_verbatim_iff 0 0 63 immr).2 (.inr (.inr ⟨rfl, rfl, rfl⟩))]
  rfl

end Sys2Proof.Proofs
end

section
/-! Which requests are answered and which are refused: a step answers exactly the safe ones. -/

namespace Sys2Proof

open Sys2Proof.Machine

/-- An operation has operands outside its domain only as `ONES`, `REPLICATE` or `ROR` (R63, R73, R78, R81). -/
theorem wellFormed_eq_false_iff (i : Instr) : i.wellFormed = false ↔
    (∃ length, i = .ones length ∧ 64 < length.toNat) ∨
    (∃ totalWidth esize value, i = .replicate totalWidth esize value ∧
      ¬Claims.replicateDomain totalWidth.toNat esize.toNat) ∨
    (∃ width shiftCount value, i = .ror width shiftCount value ∧
      ¬Claims.rorDomain width.toNat shiftCount.toNat) := by
  rw [← Bool.not_eq_true]
  cases i with
  | ones length => simp [Instr.wellFormed, onesDomain_eq_true_iff]
  | replicate totalWidth esize value => simp [Instr.wellFormed, replicateDomain_eq_true_iff]
  | ror width shiftCount value => simp [Instr.wellFormed, rorDomain_eq_true_iff]
  | isBitSet | hsb | dbmL | dbmM | mwp => simp [Instr.wellFormed]

/-- A safe request decodes to an operation with operands in its domain. -/
theorem safe_eq_true_iff (r : Request) : r.safe = true ↔ ∃ i, decode r = .ok i ∧ i.wellFormed = true := by
  cases hd : decode r <;> simp [Request.safe, hd]

/-- A request that is not safe is too wide for its format, or decodes to an operation with operands outside its domain (R139, U6). -/
theorem safe_eq_false_iff (r : Request) : r.safe = false ↔
    2 ^ r.format.requestBits ≤ r.word.toNat ∨ ∃ i, decode r = .ok i ∧ i.wellFormed = false := by
  by_cases h : r.word.toNat < 2 ^ r.format.requestBits
  · simp [Request.safe, decode_of_fits h, h]
  · simp [Request.safe, decode_of_wide h, not_lt.1 h]

namespace Machine

/-- A safe request is taken and answered (R139, log 1). -/
theorem step_of_safe {s : State} {r : Request} {rest : List Request} (hs : s.requests = r :: rest) (h : r.safe = true) :
    ∃ q : Response, step s = .next ⟨rest, some q⟩ := by
  obtain ⟨i, hd, hi⟩ := (safe_eq_true_iff r).1 h
  rcases exec_cases i with ⟨-, q, hq⟩ | ⟨hf, -⟩
  · exact ⟨q, (step_of_decode_ok hs hd).trans (hq _)⟩
  · exact absurd (hi.symm.trans hf) (by decide)

/-- A request that is not safe is refused (R139, U6; log 3, log 10). -/
theorem step_of_not_safe {s : State} {r : Request} {rest : List Request} (hs : s.requests = r :: rest)
    (h : r.safe = false) : ∃ x : Refusal, step s = .refused x := by
  cases hd : decode r with
  | error e => exact ⟨_, step_of_decode_error hs hd⟩
  | ok i =>
    rcases exec_cases i with ⟨ht, -⟩ | ⟨-, x, hx⟩
    · exact absurd ((safe_eq_true_iff r).2 ⟨i, hd, ht⟩) (by simp [h])
    · exact ⟨x, (step_of_decode_ok hs hd).trans (hx _)⟩

/-- A step refuses exactly the requests that are not safe. -/
theorem step_refused_iff {s : State} {r : Request} {rest : List Request} (hs : s.requests = r :: rest) :
    (∃ x, step s = .refused x) ↔ r.safe = false := by
  refine ⟨fun ⟨x, hx⟩ => Bool.eq_false_iff.2 fun h => ?_, step_of_not_safe hs⟩
  obtain ⟨q, hq⟩ := step_of_safe hs h
  cases hq.symm.trans hx

end Machine

end Sys2Proof
end

section
/-! Which operations answer Undefined: the two of unit DBM, under the causes of R131. -/

namespace Sys2Proof.Machine

/-- `DBM.L` is Undefined under cause (a) or (b) alone (R131). -/
theorem exec_dbmL_undefined_iff (N : Bit) (imms immr : Field6) (s : State) :
    exec (.dbmL N imms immr) s = .next (s.respond .undefined) ↔ Claims.causeA N imms ∨ Claims.causeB N imms := by
  refine ⟨fun h => by_contra fun hno => ?_, fun h => exec_dbmL_of_cause h immr s⟩
  obtain ⟨hA, hB⟩ := not_or.1 hno
  cases response_eq_of_next_eq ((exec_dbmL_of_no_cause hA hB immr s).symm.trans h)

/-- `DBM.M` is Undefined under cause (a) alone (R131). -/
theorem exec_dbmM_undefined_iff (N : Bit) (imms immr : Field6) (s : State) :
    exec (.dbmM N imms immr) s = .next (s.respond .undefined) ↔ Claims.causeA N imms := by
  refine ⟨fun h => by_contra fun hA => ?_, fun h => exec_dbmM_of_causeA h immr s⟩
  cases response_eq_of_next_eq ((exec_dbmM_of_not_causeA hA immr s).symm.trans h)

/-- No response word but that of unit DBM can be read as Undefined (R55). -/
theorem format_eq_fDbm_of_carries_undefined {f : Format} (h : Carries f .undefined) : f = .fDbm := by
  obtain ⟨-, hread⟩ := h 0
  cases f with
  | fDbm => rfl
  | pBit | pLen | pVal | pRep | pRor | fMwp => cases hread

/-- The operations of unit DBM are `DBM.L` and `DBM.M` (R53, R54). -/
theorem eq_dbmL_or_eq_dbmM_of_format {i : Instr} (h : (encode i).format = .fDbm) :
    (∃ N imms immr, i = .dbmL N imms immr) ∨ (∃ N imms immr, i = .dbmM N imms immr) := by
  cases i with
  | dbmL N imms immr => exact .inl ⟨N, imms, immr, rfl⟩
  | dbmM N imms immr => exact .inr ⟨N, imms, immr, rfl⟩
  | isBitSet | ones | hsb | replicate | ror | mwp => cases h

/-- An operation that leaves Undefined on the ports is one of unit DBM, and the ports are all that it changes. -/
theorem exec_eq_undefined {i : Instr} {s t : State} (ht : exec i s = .next t) (hu : t.outputs = some .undefined) :
    (encode i).format = .fDbm ∧ exec i s = .next (s.respond .undefined) := by
  rcases exec_cases i with ⟨hwf, -⟩ | ⟨-, x, hx⟩
  · obtain ⟨r, hr, hcarries⟩ := exec_carries hwf
    cases (hr s).symm.trans ht
    cases hu
    exact ⟨format_eq_fDbm_of_carries_undefined hcarries, hr s⟩
  · cases (hx s).symm.trans ht

end Sys2Proof.Machine
end

section
/-! The statements about the Undefined outcome and the refusals (60_exceptions.md). -/

namespace Sys2Proof.Proofs

open Sys2Proof.Machine

/-- Settles O4: a step refuses exactly the requests that are not safe (`step_refused_iff`): too wide ones, and those with
operands outside their domain (`safe_eq_false_iff`, `wellFormed_eq_false_iff`). -/
theorem stepRefusesExactlyOutsideTheDomains : Obligations.StepRefusesExactlyOutsideTheDomains := by
  intro r rest o
  rw [step_refused_iff rfl, safe_eq_false_iff]
  refine or_congr_right ⟨?_, ?_⟩
  · rintro ⟨i, hd, hi⟩
    rcases (wellFormed_eq_false_iff i).1 hi with ⟨length, rfl, h⟩ | ⟨totalWidth, esize, value, rfl, h⟩ |
      ⟨width, shiftCount, value, rfl, h⟩
    · exact .inl ⟨_, hd, h⟩
    · exact .inr (.inl ⟨_, _, _, hd, h⟩)
    · exact .inr (.inr ⟨_, _, _, hd, h⟩)
  · rintro (⟨length, hd, h⟩ | ⟨totalWidth, esize, value, hd, h⟩ | ⟨width, shiftCount, value, hd, h⟩)
    · exact ⟨_, hd, (wellFormed_eq_false_iff _).2 (.inl ⟨_, rfl, h⟩)⟩
    · exact ⟨_, hd, (wellFormed_eq_false_iff _).2 (.inr (.inl ⟨_, _, _, rfl, h⟩))⟩
    · exact ⟨_, hd, (wellFormed_eq_false_iff _).2 (.inr (.inr ⟨_, _, _, rfl, h⟩))⟩

/-- Settles O41: only unit DBM has a response word for Undefined (`exec_eq_undefined`), and its two operations answer it
exactly under their causes. -/
theorem undefinedComesFromTheDecoderAlone : Obligations.UndefinedComesFromTheDecoderAlone := by
  refine ⟨fun i s t ht hu => ?_, fun N imms immr s =>
    ⟨(exec_dbmL_undefined_iff N imms immr s).2, (exec_dbmM_undefined_iff N imms immr s).2⟩⟩
  obtain ⟨hformat, hundef⟩ := exec_eq_undefined ht hu
  rcases eq_dbmL_or_eq_dbmM_of_format hformat with ⟨N, imms, immr, rfl⟩ | ⟨N, imms, immr, rfl⟩
  · exact .inl ⟨N, imms, immr, rfl, (exec_dbmL_undefined_iff N imms immr s).1 hundef⟩
  · exact .inr ⟨N, imms, immr, rfl, (exec_dbmM_undefined_iff N imms immr s).1 hundef⟩

/-- Settles O49: the first request is safe, so it is taken and answered (`step_of_safe`), and the others stay as they were. -/
theorem safeRequestsAreAllAnswered : Obligations.SafeRequestsAreAllAnswered := by
  intro s hsafe hne
  obtain ⟨r, rest, hs⟩ := List.exists_cons_of_ne_nil hne
  rw [State.safe, hs, List.all_cons, Bool.and_eq_true] at hsafe
  obtain ⟨hr, hrest⟩ := hsafe
  obtain ⟨q, hq⟩ := step_of_safe hs hr
  exact ⟨_, hq, hrest, by rw [hs]; rfl, Option.some_ne_none q⟩

end Sys2Proof.Proofs
end

section
/-! Runs of safe requests: each is answered alike whatever came before it (R20, R153). -/

namespace Sys2Proof.Machine

/-- A safe request has one response, whatever follows it and whatever the outputs carry already (R20). -/
theorem exists_response_of_safe {r : Request} (h : r.safe = true) :
    ∃ q : Response, ∀ (rest : List Request) (o : Option Response), step ⟨r :: rest, o⟩ = .next ⟨rest, some q⟩ := by
  obtain ⟨i, hd, hi⟩ := (safe_eq_true_iff r).1 h
  rcases exec_cases i with ⟨-, q, hq⟩ | ⟨hf, -⟩
  · exact ⟨q, fun rest o => (step_of_decode_ok rfl hd).trans (hq _)⟩
  · exact absurd (hi.symm.trans hf) (by decide)

/-- A run over safe requests takes them all and goes on with the later ones (R153; log 1, log 11). -/
theorem core_run_of_safe {earlier : List Request} (later : List Request) (k : Nat) (o : Option Response)
    (h : earlier.all Request.safe = true) :
    ∃ o' : Option Response, Host.Core.run Sys2Proof.core (earlier.length + k) (⟨earlier ++ later, o⟩ : State) =
      Host.Core.run Sys2Proof.core k (⟨later, o'⟩ : State) := by
  induction earlier generalizing o with
  | nil => exact ⟨o, by rw [List.length_nil, Nat.zero_add, List.nil_append]⟩
  | cons r earlier ih =>
    rw [List.all_cons, Bool.and_eq_true] at h
    obtain ⟨hr, hrest⟩ := h
    obtain ⟨q, hq⟩ := exists_response_of_safe hr
    obtain ⟨o', ho'⟩ := ih (some q) hrest
    refine ⟨o', ?_⟩
    rw [List.length_cons, Nat.add_right_comm, List.cons_append, core_run_next (hq _ o), ho']

end Sys2Proof.Machine
end

section
/-! The statements about reset and sequences of requests (70_reset_and_hazards.md). -/

namespace Sys2Proof.Proofs

open Sys2Proof.Machine

/-- Settles O46: the earlier requests leave `r` at the head of the list (`core_run_of_safe`), and the response of `r` is the
same there as alone (`exists_response_of_safe`). -/
theorem anySequenceGivesEachRequestItsOwnResult : Obligations.AnySequenceGivesEachRequestItsOwnResult := by
  intro earlier later r o hearlier hr
  obtain ⟨q, hq⟩ := exists_response_of_safe hr
  obtain ⟨o', hrun⟩ := core_run_of_safe (r :: later) 1 o hearlier
  exact ⟨⟨later, some q⟩, ⟨[], some q⟩, hrun.trans (core_run_next (hq later o')), hq [] none, rfl, rfl⟩

/-- Settles O48: no port has a value at reset (`State.reset_outputs`), so there is none that could be illegal. -/
theorem resetOutputsAreLegal : Obligations.ResetOutputsAreLegal := by
  intro r hr
  rw [State.reset_outputs] at hr
  cases hr

end Sys2Proof.Proofs
end

section
/-! The request words of the spec's tables (95_test_vectors.md sections 2, 3 and 5). -/

namespace Sys2Proof.Proofs

/-- The request an operation packs to is read as that operation (R54, R56, R57). -/
theorem decode_of_encode_eq {i : Instr} {r : Request} (h : encode i = r) : decode r = .ok i :=
  h ▸ decodeOfEncodeIsTheOperation i

/-- Settles O9: the operation the tables give packs to each word, so the word is read as it (`decode_of_encode_eq`). -/
theorem wordsOfTheSpecDecode : Obligations.WordsOfTheSpecDecode := by
  refine ⟨?d31, ?d61, ?m12, ?hsb, ?ones, ?ror, ?replicate⟩ <;> exact decode_of_encode_eq (by decide)

end Sys2Proof.Proofs
end
